-- ==== Sys2Proof/Word.lean ====
section
/-! DEFINITION. The one word of this hardware: the byte (00_scope.md R10). Lengths, capacities and indices are natural
numbers (R11), so there is no other width. -/

namespace Sys2Proof

/-- A byte, eight bits, bit 7 the most significant (R10). It is compared for equality and moved, never sliced. -/
abbrev Byte := BitVec 8

end Sys2Proof
end

