-- ==== Sys2Proof/Config.lean ====
section
/-! DEFINITION. The parameters of the block (00_scope.md R7 to R9). They are fields, so that a statement can speak of
every admissible configuration (91_not_in_source.md N3). There is no free value in this model: what the environment
chooses is carried by its events (log entries 4 and 9). -/

namespace Sys2Proof

/-- The parameters of R7. -/
structure Config where
  /-- `DELIM`, the frame delimiter byte. -/
  delim  : Byte
  /-- `ESC`, the escape byte. -/
  esc    : Byte
  /-- `M_END`, which after `ESC` stands for `DELIM`. -/
  mEnd   : Byte
  /-- `M_ESC`, which after `ESC` stands for `ESC`. -/
  mEsc   : Byte
  /-- `LEN_MAX`, the largest length or capacity; `none` is no bound (D11 leaves it OPEN). -/
  lenMax : Option Nat
  deriving DecidableEq, Repr

/-- The values of R7. PRESUMED (log entry 2): the two markers are the spec's defaults, from general knowledge.
DESIGN CHOICE (log entry 3): no bound on lengths. -/
def Config.default : Config :=
  { delim := 0xC0, esc := 0xDB, mEnd := 0xDC, mEsc := 0xDD, lenMax := none }

/-- R8: "the four values `DELIM`, `ESC`, `M_END`, `M_ESC` are pairwise distinct". -/
def Config.admissible (c : Config) : Bool :=
  c.delim != c.esc && c.mEnd != c.mEsc && c.mEnd != c.delim && c.mEsc != c.delim && c.mEnd != c.esc
    && c.mEsc != c.esc

/-- A length or capacity the command ports can carry (10_state.md R42). -/
def Config.lengthOk (c : Config) (n : Nat) : Bool :=
  match c.lenMax with
  | none => true
  | some m => decide (n ≤ m)

end Sys2Proof
end

