-- ==== Sys2Proof/Machine/Frame.lean ====
section
/-! DEFINITION. The frame of a payload (40_encoder.md R112) and the byte-serial machine that produces the same bytes
(R118), both pure functions of the payload and the parameters. -/

namespace Sys2Proof.Machine

/-- `Esc(b)` of R112, the escape table of 30_encoding.md R82. -/
def escByte (c : Config) (b : Byte) : List Byte :=
  if b = c.delim then [c.esc, c.mEnd]
  else if b = c.esc then [c.esc, c.mEsc]
  else [b]

/-- The body of the frame: each payload byte in index order, individually escaped. -/
def frameBody (c : Config) : List Byte → List Byte
  | [] => []
  | b :: p => escByte c b ++ frameBody c p

/-- `Frame(p)` of R112. -/
def frame (c : Config) (p : List Byte) : List Byte :=
  [c.delim] ++ frameBody c p ++ [c.delim]

/-- The internal phases of R118. -/
inductive SerialPhase where
  | eOpen
  | eBody
  | eEsc2 (m : Byte)
  | eClose
  | eDone
  deriving DecidableEq, Repr

/-- The byte-serial machine: its phase, `e_idx`, and what it has emitted. -/
structure Serial where
  phase   : SerialPhase
  idx     : Nat
  emitted : List Byte
  deriving DecidableEq, Repr

/-- Before the first step. -/
def serialStart : Serial := { phase := .eOpen, idx := 0, emitted := [] }

/-- One step of R118 on the payload `p`; `E_DONE` does nothing more. -/
def serialStep (c : Config) (p : List Byte) (t : Serial) : Serial :=
  match t.phase with
  | .eOpen => { t with phase := .eBody, emitted := t.emitted ++ [c.delim] }
  | .eBody =>
    match p[t.idx]? with
    | none => { t with phase := .eClose }
    | some b =>
      if b = c.delim then { t with phase := .eEsc2 c.mEnd, emitted := t.emitted ++ [c.esc] }
      else if b = c.esc then { t with phase := .eEsc2 c.mEsc, emitted := t.emitted ++ [c.esc] }
      else { t with idx := t.idx + 1, emitted := t.emitted ++ [b] }
  | .eEsc2 m => { t with phase := .eBody, idx := t.idx + 1, emitted := t.emitted ++ [m] }
  | .eClose => { t with phase := .eDone, emitted := t.emitted ++ [c.delim] }
  | .eDone => t

/-- `k` steps of R118. -/
def serialRun (c : Config) (p : List Byte) : Nat → Serial → Serial
  | 0, t => t
  | k + 1, t => serialRun c p k (serialStep c p t)

end Sys2Proof.Machine
end

