-- ==== Sys2Proof/Syntax.lean ====
section
/-! DEFINITION. The operations of opcode_table.json, one constructor a row, and the contexts (the table's `format`
with the state condition its `when` names) in which a symbol is read (30_encoding.md R84, R98). -/

namespace Sys2Proof

/-- The operations. A byte operand `b` is the whole symbol (R92). The operands `pay` and `out` of the two commands are
the addresses at which the caller's buffers begin (10_state.md R42, log entry 12). -/
inductive Instr where
  /-- `SEEK.END`, R142. -/
  | seekEnd
  /-- `SEEK.SKIP`, R143. -/
  | seekSkip (b : Byte)
  /-- `COPY.END`, R144. -/
  | copyEnd
  /-- `COPY.OVF`, R146. -/
  | copyOvf (b : Byte)
  /-- `COPY.ESC`, R150. -/
  | copyEsc
  /-- `COPY.LIT`, R148. -/
  | copyLit (b : Byte)
  /-- `ESCAPED.MEND`, R152. -/
  | escapedMend
  /-- `ESCAPED.MESC`, R153. -/
  | escapedMesc
  /-- `ESCAPED.BAD`, R154. -/
  | escapedBad (b : Byte)
  /-- `RESYNC.END`, R156. -/
  | resyncEnd
  /-- `RESYNC.SKIP`, R157. -/
  | resyncSkip (b : Byte)
  /-- `SRC.FAIL`, R160. -/
  | srcFail
  /-- `TX.OPEN`, R113. -/
  | txOpen
  /-- `TX.ESCD`, R115. -/
  | txEscd
  /-- `TX.ESCE`, R116. -/
  | txEsce
  /-- `TX.LIT`, R114. -/
  | txLit (b : Byte)
  /-- `TX.CLOSE`, R117. -/
  | txClose
  /-- `ENCODE(PAY, n)`, R110. -/
  | encode (pay n : Nat)
  /-- `DECODE(max_len)` with its binding of `OUT`, R140. -/
  | decode (maxLen out : Nat)
  deriving DecidableEq, Repr

/-- What a symbol is read in: the decoder's phase, in `COPY` with whether the buffer is full (`d_len = d_cap`, R86),
or the encoder's body, where the symbol is a payload byte (R96). -/
inductive Context where
  | rxSeek
  | rxCopy (full : Bool)
  | rxEscaped
  | rxResync
  | tx
  deriving DecidableEq, Repr

/-- The contexts whose tables (R85 to R88, R96) hold the operation's row. An operation that no symbol selects (`SRC.FAIL`,
`TX.OPEN`, `TX.CLOSE` and the two commands, R93, R98) is in none. -/
def Instr.inContext : Instr → Context → Bool
  | .seekEnd, x => x == .rxSeek
  | .seekSkip _, x => x == .rxSeek
  | .copyEnd, x => x == .rxCopy true || x == .rxCopy false
  | .copyOvf _, x => x == .rxCopy true
  | .copyEsc, x => x == .rxCopy false
  | .copyLit _, x => x == .rxCopy false
  | .escapedMend, x => x == .rxEscaped
  | .escapedMesc, x => x == .rxEscaped
  | .escapedBad _, x => x == .rxEscaped
  | .resyncEnd, x => x == .rxResync
  | .resyncSkip _, x => x == .rxResync
  | .srcFail, _ => false
  | .txOpen, _ => false
  | .txEscd, x => x == .tx
  | .txEsce, x => x == .tx
  | .txLit _, x => x == .tx
  | .txClose, _ => false
  | .encode _ _, _ => false
  | .decode _ _, _ => false

end Sys2Proof
end

