-- ==== Sys2Proof/Machine/State.lean ====
section
/-! DEFINITION. The state of the block as plain data (10_state.md sections 2, 3, 6 and 7), the events of its environment,
and the reasons a step can stop. -/

namespace Sys2Proof.Machine

/-- A buffer space: address and byte, addresses strictly rising (`Memory.wf`). An address that is not listed holds no
value (log entry 13), so no listed byte equals what an unlisted address reads as. -/
abbrev Memory := List Host.Cell

/-- `d_phase`, R24. -/
inductive DPhase where
  | idle
  | seek
  | copy
  | escaped
  | resync
  deriving DecidableEq, Repr

/-- `d_status`, R27. -/
inductive DStatus where
  | none
  | invalidEscape
  | frameTooLarge
  deriving DecidableEq, Repr

/-- The three error conditions, 60_exceptions.md R190. -/
inductive ErrorCode where
  | transportFailure
  | invalidEscape
  | frameTooLarge
  deriving DecidableEq, Repr

/-- A result of a decode call, R41. With `ok length` the payload is `OUT[0 .. length)`. -/
inductive DecResult where
  | ok (length : Nat)
  | err (code : ErrorCode)
  deriving DecidableEq, Repr

/-- A result of an encode call, R41: `Ok` or `Err(TRANSPORT_FAILURE)`. -/
inductive EncResult where
  | ok
  | transportFailure
  deriving DecidableEq, Repr

/-- The decoder's registers, R23. -/
structure Dec where
  phase  : DPhase
  len    : Nat
  cap    : Nat
  status : DStatus
  /-- Where the caller's output buffer begins in the `OUT` space (R42, log entry 12). -/
  out    : Nat
  deriving DecidableEq, Repr

/-- `e_phase`, R31. -/
inductive EPhase where
  | idle
  | writing
  deriving DecidableEq, Repr

/-- How far the byte-serial form has come inside `WRITING` (40_encoder.md R118, log entry 16): before `TX.OPEN`, in the
body, after `TX.CLOSE`. Not architectural. -/
inductive ESub where
  | eOpen
  | eBody
  | eDone
  deriving DecidableEq, Repr

/-- The encoder's registers, R30. -/
structure Enc where
  phase   : EPhase
  n       : Nat
  idx     : Nat
  /-- Where the caller's payload buffer begins in the `PAY` space (R42, log entry 12). -/
  pay     : Nat
  /-- The outstanding `SinkWrite(s)`, if any (R33, R43). -/
  write   : Option (List Byte)
  sub     : ESub
  /-- The bytes the byte-serial form has emitted in this call (R118, log entry 16). -/
  emitted : List Byte
  deriving DecidableEq, Repr

/-- An answer of the byte source to a `SrcRead()`, R54. -/
inductive SrcAnswer where
  | byte (b : Byte)
  | fail
  deriving DecidableEq, Repr

/-- An answer of the byte sink to a `SinkWrite`, R56 and R57. `fail sent` carries the environment's draw: how many bytes
of the sequence reached the wire (log entry 9). -/
inductive SinkAnswer where
  | ok
  | fail (sent : Nat)
  deriving DecidableEq, Repr

/-- An access of the caller to its own buffers, R69 (log entry 15). -/
inductive CallerAccess where
  | readOut (a : Nat)
  | writeOut (a : Nat) (v : Byte)
  | readPay (a : Nat)
  | writePay (a : Nat) (v : Byte)
  deriving DecidableEq, Repr

/-- What can cause a step (00_scope.md R13): a command, an answer, a reset; and a step of the byte-serial encoder
(R118, log entry 16) and an access of the caller (R69). `reset sent` carries the draw of R231: how many bytes of a write
in progress reached the wire. -/
inductive Event where
  | decode (maxLen out : Nat)
  | encode (pay n : Nat)
  | src (a : SrcAnswer)
  | sink (a : SinkAnswer)
  | emit
  | reset (sent : Nat)
  | caller (a : CallerAccess)
  deriving DecidableEq, Repr

/-- The whole state. -/
structure State where
  /-- The parameters (R7): constant, held here so that statements range over all of them (log entry 1). -/
  cfg        : Config
  /-- The decoder unit. -/
  dec        : Dec
  /-- The encoder unit. -/
  enc        : Enc
  /-- The space the output buffers lie in (R50). -/
  out        : Memory
  /-- The space the payload buffers lie in (R50). -/
  pay        : Memory
  /-- The outbound stream: what every `SinkWrite` added, in call order (R58). -/
  tx         : List Byte
  /-- The results delivered on the decoder's result port, oldest first (R41, R176, log entry 21). -/
  decResults : List DecResult
  /-- The results delivered on the encoder's result port, oldest first (R41, log entry 21). -/
  encResults : List EncResult
  /-- What the environment does next, in order: the interleaving of R20 and R22 (log entry 4). -/
  pending    : List Event
  deriving DecidableEq, Repr

/-- The decoder right after reset (R40): `IDLE`; the other registers are unspecified there and get named values.
DESIGN CHOICE (log entry 10): 0 and `NONE`. -/
def Dec.reset : Dec :=
  { phase := .idle, len := 0, cap := 0, status := .none, out := 0 }

/-- The encoder right after reset (R40): `IDLE`, no write outstanding (R33). DESIGN CHOICE (log entry 10): the
unspecified registers are 0, the byte-serial progress is at its start. -/
def Enc.reset : Enc :=
  { phase := .idle, n := 0, idx := 0, pay := 0, write := none, sub := .eOpen, emitted := [] }

/-- The block right after reset, with nothing placed in the caller's memory, nothing on the wire (log entry 25), no
result delivered and no event pending (R232). -/
def State.reset : State :=
  { cfg := Config.default, dec := Dec.reset, enc := Enc.reset, out := [], pay := [], tx := [],
    decResults := [], encResults := [], pending := [] }

/-- Why a step stops where the block has no behaviour. Every one is safe: the model stops where a block might go on. -/
inductive Fault where
  /-- Raised by the store to `OUT` at an index not below `d_cap`: `MemWrite` is not defined there (20_memory.md R52).
  Safe; no state that keeps the decoder's invariant raises it (log entry 26). -/
  | outIndexBeyondCapacity
  /-- Raised by a read of a payload byte that the caller never placed: the duty of R233(e) is broken and `MemRead` has no
  value to return (R51). Safe (log entry 13). -/
  | payByteNotPlaced
  /-- Raised by `RESYNC.END` with `d_status = NONE`: there is no error to report (R27). Safe; no state that keeps the
  decoder's invariant raises it (log entry 22). -/
  | resyncWithoutError
  deriving DecidableEq, Repr

/-- Why the model gives something no meaning. Every one is safe: nothing is claimed of what is refused. -/
inductive Refusal where
  /-- Raised by `exec` for an instruction without a meaning. Safe. -/
  | notModelled (mnemonic : String)
  /-- Raised by `DECODE` while `d_phase` is not `IDLE` (R141, D13). Safe. -/
  | decoderBusy
  /-- Raised by `ENCODE` while `e_phase` is not `IDLE` (R111, D13). Safe. -/
  | encoderBusy
  /-- Raised by a command whose length is above `LEN_MAX`, which the port cannot carry (R42, R122). Safe. -/
  | lengthAboveMax
  /-- Raised by a source answer while no `SrcRead()` is outstanding (R54, R196, log entry 7). Safe. -/
  | noSrcReadOutstanding
  /-- Raised by a sink answer while no `SinkWrite` is outstanding (R33, R196, log entry 7). Safe. -/
  | noSinkWriteOutstanding
  /-- Raised by an emission step when no encode call is in progress or its frame is complete (R118). Safe. -/
  | nothingToEmit
  /-- Raised by an operation executed where its row is not selected: another phase, or its `when` condition does not
  hold (R84, R98, log entry 18). Safe; `step` never executes one so in a state that keeps the invariants. -/
  | rowNotSelected
  /-- Raised by a caller's access to a buffer that a call in progress owns (R69, U13). Safe. -/
  | bufferOwnedByCall
  /-- Raised by every step under parameters that break R8. Safe. -/
  | inadmissibleConfig
  deriving DecidableEq, Repr

end Sys2Proof.Machine
end

