-- ==== Sys2Proof/Machine/Ops.lean ====
section
/-! DEFINITION. The named operations over state and buffers: record updates, memory, the raise of an error condition
(60_exceptions.md R190, R199) and the delivery of a result (41_decoder.md R176, R201). -/

namespace Sys2Proof.Machine

/-- A step's outcome. -/
abbrev Result := Host.Outcome State Fault Refusal

/-! Updates of one field of the state. -/

/-- Set the decoder's registers. -/
def State.withDec (s : State) (d : Dec) : State := { s with dec := d }
/-- Set the encoder's registers. -/
def State.withEnc (s : State) (e : Enc) : State := { s with enc := e }
/-- Set the `OUT` space. -/
def State.withOut (s : State) (m : Memory) : State := { s with out := m }
/-- Set the `PAY` space. -/
def State.withPay (s : State) (m : Memory) : State := { s with pay := m }
/-- Extend the outbound stream (R56). -/
def State.sendTx (s : State) (bs : List Byte) : State := { s with tx := s.tx ++ bs }
/-- Deliver a result on the decoder's result port (R41). -/
def State.deliverDec (s : State) (r : DecResult) : State := { s with decResults := s.decResults ++ [r] }
/-- Deliver a result on the encoder's result port (R41). -/
def State.deliverEnc (s : State) (r : EncResult) : State := { s with encResults := s.encResults ++ [r] }
/-- Set what the environment does next. -/
def State.withPending (s : State) (es : List Event) : State := { s with pending := es }

/-! Buffer spaces. -/

/-- The canonical form: addresses strictly rising. -/
def Memory.wf : Memory → Bool
  | [] => true
  | [_] => true
  | (a, _) :: (b, w) :: m => decide (a < b) && Memory.wf ((b, w) :: m)

/-- The byte at an address, if there is one. -/
def memRead : Memory → Nat → Option Byte
  | [], _ => none
  | (b, w) :: m, a => if a = b then some w else memRead m a

/-- Store a byte, keeping the addresses rising. -/
def memWrite : Memory → Nat → Byte → Memory
  | [], a, v => [(a, v)]
  | (b, w) :: m, a, v =>
    if a < b then (a, v) :: (b, w) :: m
    else if a = b then (a, v) :: m
    else (b, w) :: memWrite m a v

/-- The `n` bytes from address `a` on, if all are there. -/
def memReadBytes (m : Memory) (a : Nat) : Nat → Option (List Byte)
  | 0 => some []
  | n + 1 =>
    match memRead m a, memReadBytes m (a + 1) n with
    | some b, some bs => some (b :: bs)
    | _, _ => none

/-! The end of a call and the error conditions. -/

/-- The decoder's call ends with a result: the phase becomes `IDLE` and the result is delivered in the same step (R176). -/
def finishDec (r : DecResult) (s : State) : State :=
  (s.withDec { s.dec with phase := .idle }).deliverDec r

/-- The encoder's call ends with a result: the phase becomes `IDLE` and no write is outstanding (R120, R121). -/
def finishEnc (r : EncResult) (s : State) : State :=
  (s.withEnc { s.enc with phase := .idle, write := none }).deliverEnc r

/-- `raise` in the decoder, whole (R199): a bad escape and an overflow record the pending status, reset the length and
go to `RESYNC`; a transport failure resets the length and ends the call at once (R160, R192). -/
def raiseDec (e : ErrorCode) (s : State) : State :=
  match e with
  | .invalidEscape => s.withDec { s.dec with status := .invalidEscape, len := 0, phase := .resync }
  | .frameTooLarge => s.withDec { s.dec with status := .frameTooLarge, len := 0, phase := .resync }
  | .transportFailure => finishDec (.err .transportFailure) (s.withDec { s.dec with len := 0 })

end Sys2Proof.Machine
end

