-- ==== Sys2Proof/Machine/Operands.lean ====
section
/-! DEFINITION. The operand forms: the two buffers seen as index spaces from 0 (20_memory.md R51, R52, R62), who owns
which addresses (R69), and the context in which the decoder reads a symbol (30_encoding.md R84). -/

namespace Sys2Proof.Machine

/-- The address of `OUT[d_len]`, where the next append goes (R28, R52). -/
def outAddr (d : Dec) : Nat := d.out + d.len

/-- The address of `PAY[e_idx]` (R51, R118). -/
def payAddr (e : Enc) : Nat := e.pay + e.idx

/-- `MemWrite(OUT, d_len, 1, v)`, `d_len <- d_len + 1` and the next phase: the append of R148, R152 and R153. It is
defined only for an index below `d_cap` (R52). -/
def appendOut (v : Byte) (next : DPhase) (s : State) : Result :=
  if s.dec.len < s.dec.cap then
    .next ((s.withOut (memWrite s.out (outAddr s.dec) v)).withDec
      { s.dec with len := s.dec.len + 1, phase := next })
  else .fault .outIndexBeyondCapacity

/-- A `SrcRead()` is outstanding exactly in the four phases of a call (R54, R162). -/
def State.srcReadOutstanding (s : State) : Bool := s.dec.phase != .idle

/-- The context of the next received symbol; none in `IDLE`, where nothing is read (R24). -/
def rxContext (d : Dec) : Option Context :=
  match d.phase with
  | .idle => none
  | .seek => some .rxSeek
  | .copy => some (.rxCopy (decide (d.len = d.cap)))
  | .escaped => some .rxEscaped
  | .resync => some .rxResync

/-- The addresses of `OUT` that a decode call in progress owns (R69): none in `IDLE`. DESIGN CHOICE (log entry 29): after a
reset that abandons a call, whose result never comes (R231), that gives `OUT` back to the caller. -/
def ownedByDec (d : Dec) (a : Nat) : Bool :=
  d.phase != .idle && decide (d.out ≤ a) && decide (a < d.out + d.cap)

/-- The addresses of `PAY` that an encode call in progress owns for reading (R69): none in `IDLE`. DESIGN CHOICE (log entry
29): after a reset that abandons a call, whose result never comes (R231), that gives `PAY` back to the caller. -/
def ownedByEnc (e : Enc) (a : Nat) : Bool :=
  e.phase == .writing && decide (e.pay ≤ a) && decide (a < e.pay + e.n)

end Sys2Proof.Machine
end

