-- ==== Sys2Proof/Machine/Commands.lean ====
section
/-! DEFINITION. The two commands (40_encoder.md R110, R111; 41_decoder.md R140, R141). -/

namespace Sys2Proof.Machine

/-- `ENCODE(PAY, n)`, R110: latch the operands, `e_idx <- 0`, `e_phase <- WRITING`, issue `SinkWrite(Frame(PAY[0 .. n)))`.
Not accepted while a call is in progress (R111) nor with a length above `LEN_MAX` (R42, R122). -/
def execEncode (pay n : Nat) (s : State) : Result :=
  if s.enc.phase = .idle then
    if s.cfg.lengthOk n then
      match memReadBytes s.pay pay n with
      | some p =>
        .next (s.withEnc { phase := .writing, n := n, idx := 0, pay := pay, write := some (frame s.cfg p),
                           sub := .eOpen, emitted := [] })
      | none => .fault .payByteNotPlaced
    else .refused .lengthAboveMax
  else .refused .encoderBusy

/-- `DECODE(max_len)` with `OUT`, R140: `d_cap <- max_len`, `d_len <- 0`, `d_status <- NONE`, `d_phase <- SEEK`. Not
accepted while a call is in progress (R141) nor with a capacity above `LEN_MAX` (R42). -/
def execDecode (maxLen out : Nat) (s : State) : Result :=
  if s.dec.phase = .idle then
    if s.cfg.lengthOk maxLen then
      .next (s.withDec { phase := .seek, len := 0, cap := maxLen, status := .none, out := out })
    else .refused .lengthAboveMax
  else .refused .decoderBusy

end Sys2Proof.Machine
end

