-- ==== Sys2Proof/Machine/Copy.lean ====
section
/-! DEFINITION. Phase `COPY` (41_decoder.md section 3). -/

namespace Sys2Proof.Machine

/-- `COPY.END`, R144: the frame is complete, `return Ok(d_len)`. -/
def execCopyEnd (s : State) : Result :=
  if s.dec.phase = .copy then .next (finishDec (.ok s.dec.len) s) else .refused .rowNotSelected

/-- `COPY.OVF`, R146: the buffer is full; `raise FrameTooLarge`, the byte is discarded. -/
def execCopyOvf (_b : Byte) (s : State) : Result :=
  if s.dec.phase = .copy ∧ s.dec.len = s.dec.cap then .next (raiseDec .frameTooLarge s)
  else .refused .rowNotSelected

/-- `COPY.ESC`, R150: `d_phase <- ESCAPED`, nothing appended. -/
def execCopyEsc (s : State) : Result :=
  if s.dec.phase = .copy ∧ s.dec.len < s.dec.cap then .next (s.withDec { s.dec with phase := .escaped })
  else .refused .rowNotSelected

/-- `COPY.LIT`, R148: append the byte, stay in `COPY`. -/
def execCopyLit (b : Byte) (s : State) : Result :=
  if s.dec.phase = .copy ∧ s.dec.len < s.dec.cap then appendOut b .copy s
  else .refused .rowNotSelected

end Sys2Proof.Machine
end

