-- ==== Sys2Proof/Machine/Escaped.lean ====
section
/-! DEFINITION. Phase `ESCAPED` (41_decoder.md section 4). -/

namespace Sys2Proof.Machine

/-- `ESCAPED.MEND`, R152: append `DELIM`, back to `COPY`. -/
def execEscapedMend (s : State) : Result :=
  if s.dec.phase = .escaped then appendOut s.cfg.delim .copy s else .refused .rowNotSelected

/-- `ESCAPED.MESC`, R153: append `ESC`, back to `COPY`. -/
def execEscapedMesc (s : State) : Result :=
  if s.dec.phase = .escaped then appendOut s.cfg.esc .copy s else .refused .rowNotSelected

/-- `ESCAPED.BAD`, R154: `raise InvalidEscapeSequence`; the byte is discarded, `DELIM` and `ESC` included. -/
def execEscapedBad (_b : Byte) (s : State) : Result :=
  if s.dec.phase = .escaped then .next (raiseDec .invalidEscape s) else .refused .rowNotSelected

end Sys2Proof.Machine
end

