-- ==== Sys2Proof/Machine/Flags.lean ====
section
/-! DEFINITION. The block has no arithmetic flags (10_state.md R37). Its only status is the result status of a call and
the pending `d_status`; this file says how they map. -/

namespace Sys2Proof.Machine

/-- The error that a `RESYNC` phase will report (R27, R156); `NONE` stands for no error. -/
def pendingError : DStatus → Option ErrorCode
  | .none => none
  | .invalidEscape => some .invalidEscape
  | .frameTooLarge => some .frameTooLarge

/-- The result statuses, 60_exceptions.md R191. -/
inductive Status where
  | ok
  | transportFailure
  | invalidEscape
  | frameTooLarge
  deriving DecidableEq, Repr

/-- The optional numbering of R191; nothing depends on it (D8, log entry 28). -/
def statusNumber : Status → Nat
  | .ok => 0
  | .transportFailure => 1
  | .invalidEscape => 2
  | .frameTooLarge => 3

/-- The status of a decode result (R191). -/
def decStatus : DecResult → Status
  | .ok _ => .ok
  | .err .transportFailure => .transportFailure
  | .err .invalidEscape => .invalidEscape
  | .err .frameTooLarge => .frameTooLarge

/-- The status of an encode result (R191). -/
def encStatus : EncResult → Status
  | .ok => .ok
  | .transportFailure => .transportFailure

/-- The length the caller sees: `Ok(length)` carries it, an error carries 0 (R41, R176). -/
def decLength : DecResult → Nat
  | .ok n => n
  | .err _ => 0

end Sys2Proof.Machine
end

