-- ==== Sys2Proof/Machine/Resync.lean ====
section
/-! DEFINITION. Phase `RESYNC` and the failure of the source (41_decoder.md sections 5 and 6). -/

namespace Sys2Proof.Machine

/-- `RESYNC.END`, R156: `return Err(d_status)`. The pseudocode leaves `d_status` as it is (log entry 11). -/
def execResyncEnd (s : State) : Result :=
  if s.dec.phase = .resync then
    match pendingError s.dec.status with
    | some e => .next (finishDec (.err e) s)
    | none => .fault .resyncWithoutError
  else .refused .rowNotSelected

/-- `RESYNC.SKIP`, R157: the byte is discarded. -/
def execResyncSkip (_b : Byte) (s : State) : Result :=
  if s.dec.phase = .resync then .next s else .refused .rowNotSelected

/-- `SRC.FAIL`, R160: `raise TransportFailure`, in any phase but `IDLE`. -/
def execSrcFail (s : State) : Result :=
  if s.dec.phase = .idle then .refused .rowNotSelected else .next (raiseDec .transportFailure s)

end Sys2Proof.Machine
end

