-- ==== Sys2Proof/Machine/Seek.lean ====
section
/-! DEFINITION. Phase `SEEK` (41_decoder.md section 2). -/

namespace Sys2Proof.Machine

/-- `SEEK.END`, R142: `d_phase <- COPY`. -/
def execSeekEnd (s : State) : Result :=
  if s.dec.phase = .seek then .next (s.withDec { s.dec with phase := .copy })
  else .refused .rowNotSelected

/-- `SEEK.SKIP`, R143: the byte is discarded. -/
def execSeekSkip (_b : Byte) (s : State) : Result :=
  if s.dec.phase = .seek then .next s else .refused .rowNotSelected

end Sys2Proof.Machine
end

