-- ==== Sys2Proof/Machine/Transmit.lean ====
section
/-! DEFINITION. The emission rules (40_encoder.md section 3) as steps of the encoder inside `WRITING`, in the order of the
byte-serial form (R118, log entries 16 and 17). -/

namespace Sys2Proof.Machine

/-- `emit bs`: the bytes join what this call has emitted, and the progress moves on. -/
def emitBytes (bs : List Byte) (idx : Nat) (sub : ESub) (s : State) : State :=
  s.withEnc { s.enc with emitted := s.enc.emitted ++ bs, idx := idx, sub := sub }

/-- A payload byte is next: the call is in its body and `e_idx < e_n`. -/
def inBody (e : Enc) : Bool :=
  e.phase == .writing && e.sub == .eBody && decide (e.idx < e.n)

/-- `TX.OPEN`, R113: `emit [DELIM]`, once, before anything else of the frame. -/
def execTxOpen (s : State) : Result :=
  if s.enc.phase = .writing ∧ s.enc.sub = .eOpen then .next (emitBytes [s.cfg.delim] s.enc.idx .eBody s)
  else .refused .rowNotSelected

/-- `TX.ESCD`, R115: `emit [ESC, M_END]` for a payload byte equal to `DELIM`. -/
def execTxEscd (s : State) : Result :=
  if inBody s.enc then .next (emitBytes [s.cfg.esc, s.cfg.mEnd] (s.enc.idx + 1) .eBody s)
  else .refused .rowNotSelected

/-- `TX.ESCE`, R116: `emit [ESC, M_ESC]` for a payload byte equal to `ESC`. -/
def execTxEsce (s : State) : Result :=
  if inBody s.enc then .next (emitBytes [s.cfg.esc, s.cfg.mEsc] (s.enc.idx + 1) .eBody s)
  else .refused .rowNotSelected

/-- `TX.LIT`, R114: `emit [b]`. -/
def execTxLit (b : Byte) (s : State) : Result :=
  if inBody s.enc then .next (emitBytes [b] (s.enc.idx + 1) .eBody s)
  else .refused .rowNotSelected

/-- `TX.CLOSE`, R117: `emit [DELIM]`, once, after the last payload byte. -/
def execTxClose (s : State) : Result :=
  if s.enc.phase = .writing ∧ s.enc.sub = .eBody ∧ s.enc.idx = s.enc.n then
    .next (emitBytes [s.cfg.delim] s.enc.idx .eDone s)
  else .refused .rowNotSelected

end Sys2Proof.Machine
end

