-- ==== Sys2Proof/Machine/Dispatch.lean ====
section
/-! DEFINITION. One arm per operation of opcode_table.json. -/

namespace Sys2Proof.Machine

def exec (i : Instr) (s : State) : Host.Outcome State Fault Refusal :=
  match i with
  | .seekEnd => Sys2Proof.Machine.execSeekEnd s
  | .seekSkip b => Sys2Proof.Machine.execSeekSkip b s
  | .copyEnd => Sys2Proof.Machine.execCopyEnd s
  | .copyOvf b => Sys2Proof.Machine.execCopyOvf b s
  | .copyEsc => Sys2Proof.Machine.execCopyEsc s
  | .copyLit b => Sys2Proof.Machine.execCopyLit b s
  | .escapedMend => Sys2Proof.Machine.execEscapedMend s
  | .escapedMesc => Sys2Proof.Machine.execEscapedMesc s
  | .escapedBad b => Sys2Proof.Machine.execEscapedBad b s
  | .resyncEnd => Sys2Proof.Machine.execResyncEnd s
  | .resyncSkip b => Sys2Proof.Machine.execResyncSkip b s
  | .srcFail => Sys2Proof.Machine.execSrcFail s
  | .txOpen => Sys2Proof.Machine.execTxOpen s
  | .txEscd => Sys2Proof.Machine.execTxEscd s
  | .txEsce => Sys2Proof.Machine.execTxEsce s
  | .txLit b => Sys2Proof.Machine.execTxLit b s
  | .txClose => Sys2Proof.Machine.execTxClose s
  | .encode pay n => Sys2Proof.Machine.execEncode pay n s
  | .decode maxLen out => Sys2Proof.Machine.execDecode maxLen out s

end Sys2Proof.Machine
end

