-- ==== Sys2Proof/Machine/Environment.lean ====
section
/-! DEFINITION. The events that are no row of the opcode table: the answers of the sink (40_encoder.md R120, R121), the
reset (70_reset_and_hazards.md R230, R231) and the caller's accesses to its buffers (20_memory.md R69). -/

namespace Sys2Proof.Machine

/-- The sink answers `Ok`, R120: the wire has the whole sequence (R56), the call ends with `Ok`. -/
def sinkOk (s : State) : Result :=
  match s.enc.write with
  | some f => .next (finishEnc .ok (s.sendTx f))
  | none => .refused .noSinkWriteOutstanding

/-- The sink answers `Fail`, R121: the wire has the first `sent` bytes of the sequence, which is any part of it from its
start (R57), and the call ends with `Err(TRANSPORT_FAILURE)`. -/
def sinkFail (sent : Nat) (s : State) : Result :=
  match s.enc.write with
  | some f => .next (finishEnc .transportFailure (s.sendTx (f.take sent)))
  | none => .refused .noSinkWriteOutstanding

/-- What a reset leaves on the wire: of a write in progress, its first `sent` bytes (R231). -/
def abandonWrite (sent : Nat) (s : State) : State :=
  match s.enc.write with
  | some f => s.sendTx (f.take sent)
  | none => s

/-- Reset, R230 and R231: both units as after reset, the buffers untouched, no result delivered. DESIGN CHOICE (log
entry 10): the registers that R40 leaves unspecified take the values they have in `State.reset`. DESIGN CHOICE (log entry
29): with both phases `IDLE` the buffers of an abandoned call are the caller's again, on which no rule speaks. -/
def resetEvent (sent : Nat) (s : State) : Result :=
  .next (((abandonWrite sent s).withDec Dec.reset).withEnc Enc.reset)

/-- A caller's access, R69: outside a call the buffers are the caller's; inside it the accesses that R69 forbids are
refused. A read changes nothing in the block. DESIGN CHOICE (log entries 15 and 29): accesses are events, every access
that R69 does not forbid is done, and a call that a reset has abandoned owns nothing. -/
def callerAccess (a : CallerAccess) (s : State) : Result :=
  match a with
  | .readOut x => if ownedByDec s.dec x then .refused .bufferOwnedByCall else .next s
  | .writeOut x v =>
    if ownedByDec s.dec x then .refused .bufferOwnedByCall else .next (s.withOut (memWrite s.out x v))
  | .readPay _ => .next s
  | .writePay x v =>
    if ownedByEnc s.enc x then .refused .bufferOwnedByCall else .next (s.withPay (memWrite s.pay x v))

end Sys2Proof.Machine
end

