-- ==== Sys2Proof/WellFormed.lean ====
section
/-! DEFINITION. Which operands an operation may carry: the conditions of the tables R85 to R88 and R96 on a catch-all
row's byte, and the range of a length on a command port (10_state.md R42). -/

namespace Sys2Proof

/-- The operand conditions of each operation under the configuration `c`. -/
def Instr.wellFormed (c : Config) : Instr → Bool
  | .seekEnd => true
  | .seekSkip b => b != c.delim
  | .copyEnd => true
  | .copyOvf b => b != c.delim
  | .copyEsc => true
  | .copyLit b => b != c.delim && b != c.esc
  | .escapedMend => true
  | .escapedMesc => true
  | .escapedBad b => b != c.mEnd && b != c.mEsc
  | .resyncEnd => true
  | .resyncSkip b => b != c.delim
  | .srcFail => true
  | .txOpen => true
  | .txEscd => true
  | .txEsce => true
  | .txLit b => b != c.delim && b != c.esc
  | .txClose => true
  | .encode _ n => c.lengthOk n
  | .decode maxLen _ => c.lengthOk maxLen

end Sys2Proof
end

