-- ==== Sys2Proof/Decode.lean ====
section
/-! DEFINITION. Reading a symbol in its context (30_encoding.md R84 to R88, R96), the decoder over bytes, the encoder,
and the same map written as the opcode table's rows with their priorities (R98). -/

namespace Sys2Proof

/-- The row a symbol selects. In each context the rows are tried from the top (R84); in `COPY` in the order of R164:
delimiter, full buffer, escape, literal. -/
def decodeSymbol (c : Config) (x : Context) (b : Byte) : Instr :=
  match x with
  | .rxSeek => if b = c.delim then .seekEnd else .seekSkip b
  | .rxCopy full =>
    if b = c.delim then .copyEnd
    else if full then .copyOvf b
    else if b = c.esc then .copyEsc
    else .copyLit b
  | .rxEscaped =>
    if b = c.mEnd then .escapedMend else if b = c.mEsc then .escapedMesc else .escapedBad b
  | .rxResync => if b = c.delim then .resyncEnd else .resyncSkip b
  | .tx => if b = c.delim then .txEscd else if b = c.esc then .txEsce else .txLit b

/-- What the decoder answers on a list of bytes. -/
inductive Decoded where
  /-- An operation and the bytes after its symbol. -/
  | ok (i : Instr) (rest : List Byte)
  /-- No byte to read: the only input that names no operation, since the tables are complete (R84). -/
  | noSymbol
  deriving DecidableEq, Repr

/-- One symbol is one byte (R81, R91): the decoder takes the first byte and leaves the rest. -/
def decodeBytes (c : Config) (x : Context) : List Byte → Decoded
  | [] => .noSymbol
  | b :: rest => .ok (decodeSymbol c x b) rest

/-- The symbol of an operation, as one byte: the row's match value, or its operand for a catch-all row (R85 to R88,
R96). Empty for an operation that no symbol selects (R93, R98). For the `tx` rows it is the payload byte (R98). -/
def encode (c : Config) : Instr → List Byte
  | .seekEnd => [c.delim]
  | .seekSkip b => [b]
  | .copyEnd => [c.delim]
  | .copyOvf b => [b]
  | .copyEsc => [c.esc]
  | .copyLit b => [b]
  | .escapedMend => [c.mEnd]
  | .escapedMesc => [c.mEsc]
  | .escapedBad b => [b]
  | .resyncEnd => [c.delim]
  | .resyncSkip b => [b]
  | .srcFail => []
  | .txOpen => []
  | .txEscd => [c.delim]
  | .txEsce => [c.esc]
  | .txLit b => [b]
  | .txClose => []
  | .encode _ _ => []
  | .decode _ _ => []

/-! The opcode table as R98 describes it: rows with a match, a mask, a priority and a condition. -/

/-- The `format` column of the rows a symbol selects. -/
inductive Format where
  | rxSeek
  | rxCopy
  | rxEscaped
  | rxResync
  | tx
  deriving DecidableEq, Repr

/-- The `when` column: none, `d_len = d_cap`, or `d_len < d_cap`. -/
inductive RowCond where
  | always
  | full
  | room
  deriving DecidableEq, Repr

/-- One row of the table; `make` builds the operation from the symbol. -/
structure Row where
  format   : Format
  pattern  : Byte
  mask     : Byte
  priority : Nat
  cond     : RowCond
  make     : Byte → Instr

/-- The fourteen rows that a symbol selects, with the four parameters in the place of their defaults. -/
def symbolRows (c : Config) : List Row :=
  [ ⟨.rxSeek, c.delim, 0xFF, 2, .always, fun _ => .seekEnd⟩,
    ⟨.rxSeek, 0x00, 0x00, 1, .always, .seekSkip⟩,
    ⟨.rxCopy, c.delim, 0xFF, 4, .always, fun _ => .copyEnd⟩,
    ⟨.rxCopy, 0x00, 0x00, 3, .full, .copyOvf⟩,
    ⟨.rxCopy, c.esc, 0xFF, 2, .room, fun _ => .copyEsc⟩,
    ⟨.rxCopy, 0x00, 0x00, 1, .room, .copyLit⟩ ]
  ++
  [ ⟨.rxEscaped, c.mEnd, 0xFF, 2, .always, fun _ => .escapedMend⟩,
    ⟨.rxEscaped, c.mEsc, 0xFF, 2, .always, fun _ => .escapedMesc⟩,
    ⟨.rxEscaped, 0x00, 0x00, 1, .always, .escapedBad⟩,
    ⟨.rxResync, c.delim, 0xFF, 2, .always, fun _ => .resyncEnd⟩,
    ⟨.rxResync, 0x00, 0x00, 1, .always, .resyncSkip⟩ ]
  ++
  [ ⟨.tx, c.delim, 0xFF, 2, .always, fun _ => .txEscd⟩,
    ⟨.tx, c.esc, 0xFF, 2, .always, fun _ => .txEsce⟩,
    ⟨.tx, 0x00, 0x00, 1, .always, .txLit⟩ ]

/-- The format of a context. -/
def contextFormat : Context → Format
  | .rxSeek => .rxSeek
  | .rxCopy _ => .rxCopy
  | .rxEscaped => .rxEscaped
  | .rxResync => .rxResync
  | .tx => .tx

/-- Whether a context meets a row's condition. -/
def contextMeets : Context → RowCond → Bool
  | _, .always => true
  | .rxCopy full, .full => full
  | .rxCopy full, .room => !full
  | _, _ => false

/-- R98: a row matches when `(symbol AND mask) = match`, in its format, with its condition met. -/
def rowMatches (x : Context) (b : Byte) (r : Row) : Bool :=
  decide (r.format = contextFormat x) && decide (b &&& r.mask = r.pattern) && contextMeets x r.cond

/-- R98: "a symbol selects the row of highest `priority` (the larger number)" among the rows that match. -/
def selectRow (x : Context) (b : Byte) : List Row → Option Row
  | [] => none
  | r :: rs =>
    match rowMatches x b r, selectRow x b rs with
    | true, none => some r
    | true, some r' => if r.priority < r'.priority then some r' else some r
    | false, best => best

/-! The host's question about a row's word. -/

/-- A symbol alone does not name a row: its context does (R84). DESIGN CHOICE (log entry 19): a bare symbol is read in
the first context in which its value is special (`DELIM` in `SEEK`, `ESC` in `COPY`, the markers in `ESCAPED`), and any
other byte as a literal of `COPY`. -/
def canonicalContext (c : Config) (b : Byte) : Context :=
  if b = c.delim then .rxSeek
  else if b = c.esc then .rxCopy false
  else if b = c.mEnd then .rxEscaped
  else if b = c.mEsc then .rxEscaped
  else .rxCopy false

/-- The operation of the eight-bit symbol `w` in its canonical context, under the default parameters, which are the
table's. Every symbol has eight bits (R81), so another number of bits names nothing. -/
def decodeTableWord (nbits w : Nat) : Option Instr :=
  if nbits = 8 ∧ w < 256 then
    match decodeBytes Config.default (canonicalContext Config.default (BitVec.ofNat 8 w)) [BitVec.ofNat 8 w] with
    | .ok i _ => some i
    | .noSymbol => none
  else none

end Sys2Proof
end

