-- ==== Sys2Proof/Machine/Select.lean ====
section
/-! DEFINITION. What an event makes the block do: which row of the opcode table is selected (41_decoder.md R162; 40_encoder.md
R118), or which event of the environment is taken; and the host's placing of a word where the next step reads it. -/

namespace Sys2Proof.Machine

/-- What is selected for the next step. -/
inductive Selection where
  /-- A row of the opcode table. -/
  | run (i : Instr)
  /-- An answer of the sink. -/
  | sink (a : SinkAnswer)
  /-- A reset, with the draw of R231. -/
  | reset (sent : Nat)
  /-- An access of the caller. -/
  | caller (a : CallerAccess)
  /-- The event has no meaning here. -/
  | refuse (r : Refusal)
  /-- The event needs a byte that is not there. -/
  | fault (r : Fault)
  deriving DecidableEq, Repr

/-- The emission that is next in an encode call (R118): `TX.OPEN`, then the row of `PAY[e_idx]` (30_encoding.md R96), then
`TX.CLOSE`. -/
def selectEmission (s : State) : Selection :=
  match s.enc.phase, s.enc.sub with
  | .idle, _ => .refuse .nothingToEmit
  | .writing, .eOpen => .run .txOpen
  | .writing, .eBody =>
    if s.enc.idx = s.enc.n then .run .txClose
    else
      match memRead s.pay (payAddr s.enc) with
      | some b => .run (decodeSymbol s.cfg .tx b)
      | none => .fault .payByteNotPlaced
  | .writing, .eDone => .refuse .nothingToEmit

/-- The answer of the source selects a row by the phase and the byte (R162, 30_encoding.md R85 to R88); `Fail` selects
`SRC.FAIL` (R160). In `IDLE` no read is outstanding and nothing can be answered (R54). -/
def selectAnswer (a : SrcAnswer) (s : State) : Selection :=
  match rxContext s.dec, a with
  | none, _ => .refuse .noSrcReadOutstanding
  | some x, .byte b => .run (decodeSymbol s.cfg x b)
  | some _, .fail => .run .srcFail

/-- What an event selects. -/
def selectEvent (e : Event) (s : State) : Selection :=
  match e with
  | .decode maxLen out => .run (.decode maxLen out)
  | .encode pay n => .run (.encode pay n)
  | .src a => selectAnswer a s
  | .sink a => .sink a
  | .emit => selectEmission s
  | .reset sent => .reset sent
  | .caller a => .caller a

/-- The decoder in a call that reads its next symbol in the context `x`, with room for one byte where the context wants
it; for the host's question about a word (log entry 20). -/
def decoderIn (x : Context) (d : Dec) : Dec :=
  match x with
  | .rxSeek => { d with phase := .seek, len := 0, cap := 1, status := .none }
  | .rxCopy full => { d with phase := .copy, len := 0, cap := if full then 0 else 1, status := .none }
  | .rxEscaped => { d with phase := .escaped, len := 0, cap := 1, status := .none }
  | .rxResync => { d with phase := .resync, len := 0, cap := 1, status := .invalidEscape }
  | .tx => d

/-- A decode call in progress, in the context in which a bare symbol is read, with that symbol as the source's next
answer, under the table's parameters (log entries 19 and 20). -/
def placeWord (s : State) (nbits w : Nat) : State :=
  if nbits = 8 ∧ w < 256 then
    { s with
      cfg := Config.default
      dec := decoderIn (canonicalContext Config.default (BitVec.ofNat 8 w)) s.dec
      pending := .src (.byte (BitVec.ofNat 8 w)) :: s.pending }
  else s

end Sys2Proof.Machine
end

