-- ==== Sys2Proof/Machine/Step.lean ====
section
/-! DEFINITION. One step of the block: one event, one step (00_scope.md R13). -/

namespace Sys2Proof.Machine

/-- Do what was selected. -/
def perform (x : Selection) (s : State) : Host.Outcome State Fault Refusal :=
  match x with
  | .run i => exec i s
  | .sink .ok => sinkOk s
  | .sink (.fail sent) => sinkFail sent s
  | .reset sent => resetEvent sent s
  | .caller a => callerAccess a s
  | .refuse r => .refused r
  | .fault r => .fault r

/-- A step takes the environment's next event. Parameters that break R8 are refused. With no event "nothing changes"
(R13): a call in progress is blocked, not ended (41_decoder.md R178; log entry 5). -/
def step (s : State) : Host.Outcome State Fault Refusal :=
  if s.cfg.admissible then
    match s.pending with
    | [] => .next s
    | e :: rest => perform (selectEvent e (s.withPending rest)) (s.withPending rest)
  else .refused .inadmissibleConfig

/-- The state whose very next step reads the symbol `w` (log entry 20). -/
def State.withFetchWord (s : State) (nbits w : Nat) : State := placeWord s nbits w

end Sys2Proof.Machine
end

