-- ==== Sys2Proof/Safety.lean ====
section
/-! DEFINITION. What counts as a safe run, in the terms the statements use: the invariants of the two units (10_state.md
R29, R33), the decoder as the one function of 41_decoder.md R170, and runs over a list of events. -/

namespace Sys2Proof.Machine

/-! Runs. -/

/-- `k` steps, stopping at the first fault or refusal. -/
def steps : Nat → State → Host.Outcome State Fault Refusal
  | 0, s => .next s
  | k + 1, s =>
    match step s with
    | .next t => steps k t
    | .fault r => .fault r
    | .refused r => .refused r

/-- The source answers these, in order. -/
def srcEvents : List SrcAnswer → List Event
  | [] => []
  | a :: as => .src a :: srcEvents as

/-- The source answers these bytes, in order. -/
def srcBytes : List Byte → List Event
  | [] => []
  | b :: bs => .src (.byte b) :: srcBytes bs

/-- An event that causes a step of DEC (00_scope.md R13), reset apart. -/
def decEvent : Event → Bool
  | .decode _ _ => true
  | .src _ => true
  | .encode _ _ => false
  | .sink _ => false
  | .emit => false
  | .reset _ => false
  | .caller _ => false

/-- An event that causes a step of ENC (R13), reset apart, the steps of its byte-serial form (R118) with them. -/
def encEvent : Event → Bool
  | .decode _ _ => false
  | .src _ => false
  | .encode _ _ => true
  | .sink _ => true
  | .emit => true
  | .reset _ => false
  | .caller _ => false

/-- The operations of DEC: its command and the rows of what the source answers. -/
def decOperation : Instr → Bool
  | .seekEnd | .seekSkip _ | .copyEnd | .copyOvf _ | .copyEsc | .copyLit _ => true
  | .escapedMend | .escapedMesc | .escapedBad _ | .resyncEnd | .resyncSkip _ | .srcFail => true
  | .txOpen | .txEscd | .txEsce | .txLit _ | .txClose | .encode _ _ => false
  | .decode _ _ => true

/-- The operations that append to `OUT` (R148, R152, R153). -/
def appends : Instr → Bool
  | .copyLit _ | .escapedMend | .escapedMesc => true
  | .seekEnd | .seekSkip _ | .copyEnd | .copyOvf _ | .copyEsc => false
  | .escapedBad _ | .resyncEnd | .resyncSkip _ | .srcFail => false
  | .txOpen | .txEscd | .txEsce | .txLit _ | .txClose | .encode _ _ | .decode _ _ => false

/-- The operations that write `d_len` (R25: R140, R146, R148, R152, R153, R154, R160). -/
def writesLen : Instr → Bool
  | .copyLit _ | .escapedMend | .escapedMesc | .copyOvf _ | .escapedBad _ | .srcFail | .decode _ _ => true
  | .seekEnd | .seekSkip _ | .copyEnd | .copyEsc | .resyncEnd | .resyncSkip _ => false
  | .txOpen | .txEscd | .txEsce | .txLit _ | .txClose | .encode _ _ => false

/-- The operations that write `d_status` (R23: R140, R146, R154). -/
def writesStatus : Instr → Bool
  | .copyOvf _ | .escapedBad _ | .decode _ _ => true
  | .copyLit _ | .escapedMend | .escapedMesc | .srcFail => false
  | .seekEnd | .seekSkip _ | .copyEnd | .copyEsc | .resyncEnd | .resyncSkip _ => false
  | .txOpen | .txEscd | .txEsce | .txLit _ | .txClose | .encode _ _ => false

/-- The operations that end a decode call with a result (R176: R144, R156, R160). -/
def endsCall : Instr → Bool
  | .copyEnd | .resyncEnd | .srcFail => true
  | .copyOvf _ | .escapedBad _ | .decode _ _ | .copyLit _ | .escapedMend | .escapedMesc => false
  | .seekEnd | .seekSkip _ | .copyEsc | .resyncSkip _ => false
  | .txOpen | .txEscd | .txEsce | .txLit _ | .txClose | .encode _ _ => false

/-! Invariants. -/

/-- R29 (a) to (d), and R27: `d_status` is `NONE` in `SEEK`, `COPY` and `ESCAPED`. -/
def decoderInv (s : State) : Prop :=
  s.dec.len ≤ s.dec.cap
    ∧ (s.dec.phase = .escaped → s.dec.len < s.dec.cap)
    ∧ (s.dec.phase = .seek → s.dec.len = 0)
    ∧ (s.dec.phase = .resync → s.dec.len = 0 ∧ s.dec.status ≠ .none)
    ∧ (s.dec.phase = .seek ∨ s.dec.phase = .copy ∨ s.dec.phase = .escaped → s.dec.status = .none)

/-- What the byte-serial form has emitted of the frame of `p` (R118). -/
def emissionInv (c : Config) (p : List Byte) (e : Enc) : Prop :=
  match e.sub with
  | .eOpen => e.idx = 0 ∧ e.emitted = []
  | .eBody => e.emitted = [c.delim] ++ frameBody c (p.take e.idx)
  | .eDone => e.idx = e.n ∧ e.emitted = frame c p

/-- R33: in `IDLE` no write is outstanding; in `WRITING` exactly the frame of the payload is; `e_idx ≤ e_n`. -/
def encoderInv (s : State) : Prop :=
  s.enc.idx ≤ s.enc.n
    ∧ (s.enc.phase = .idle → s.enc.write = none)
    ∧ (s.enc.phase = .writing → ∃ p, memReadBytes s.pay s.enc.pay s.enc.n = some p
        ∧ s.enc.write = some (frame s.cfg p) ∧ emissionInv s.cfg p s.enc)

/-- Both buffer spaces are in their canonical form. -/
def memoryInv (s : State) : Prop := s.out.wf = true ∧ s.pay.wf = true

/-! The decoder as one function, 41_decoder.md R170. -/

/-- The five-tuple of R170; `OUT` is seen as an index space from 0. -/
structure RefState where
  phase  : DPhase
  len    : Nat
  cap    : Nat
  status : DStatus
  out    : Nat → Option Byte

/-- `Cont(…)` or `Done(…)`. -/
inductive RefResult where
  | cont (t : RefState)
  | done (r : DecResult) (out : Nat → Option Byte)

/-- `OUT[i := v]`. -/
def refStore (out : Nat → Option Byte) (i : Nat) (v : Byte) : Nat → Option Byte :=
  fun j => if j = i then some v else out j

/-- `step` of R170, equation by equation; it has no equation for a state outside a call or with a status that its phase
does not allow. -/
def refStep (c : Config) (t : RefState) (e : SrcAnswer) : Option RefResult :=
  match t.phase, t.status, e with
  | .idle, _, _ => none
  | _, _, .fail => some (.done (.err .transportFailure) t.out)
  | .seek, .none, .byte b =>
    if b = c.delim then some (.cont ⟨.copy, 0, t.cap, .none, t.out⟩)
    else some (.cont ⟨.seek, 0, t.cap, .none, t.out⟩)
  | .copy, .none, .byte b =>
    if b = c.delim then some (.done (.ok t.len) t.out)
    else if t.len = t.cap then some (.cont ⟨.resync, 0, t.cap, .frameTooLarge, t.out⟩)
    else if b = c.esc then some (.cont ⟨.escaped, t.len, t.cap, .none, t.out⟩)
    else some (.cont ⟨.copy, t.len + 1, t.cap, .none, refStore t.out t.len b⟩)
  | .escaped, .none, .byte b =>
    if b = c.mEnd then some (.cont ⟨.copy, t.len + 1, t.cap, .none, refStore t.out t.len c.delim⟩)
    else if b = c.mEsc then some (.cont ⟨.copy, t.len + 1, t.cap, .none, refStore t.out t.len c.esc⟩)
    else some (.cont ⟨.resync, 0, t.cap, .invalidEscape, t.out⟩)
  | .resync, .invalidEscape, .byte b =>
    if b = c.delim then some (.done (.err .invalidEscape) t.out)
    else some (.cont ⟨.resync, 0, t.cap, .invalidEscape, t.out⟩)
  | .resync, .frameTooLarge, .byte b =>
    if b = c.delim then some (.done (.err .frameTooLarge) t.out)
    else some (.cont ⟨.resync, 0, t.cap, .frameTooLarge, t.out⟩)
  | _, _, _ => none

/-- The machine's decoder seen as the five-tuple. -/
def refView (s : State) : RefState :=
  { phase := s.dec.phase, len := s.dec.len, cap := s.dec.cap, status := s.dec.status,
    out := fun i => memRead s.out (s.dec.out + i) }

/-- `run` of R170: `some (r, out, rest)` is `Finished`, `none` is `Blocked` (the events ran out). -/
def refRun (c : Config) (t : RefState) : List SrcAnswer → Option (DecResult × (Nat → Option Byte) × List SrcAnswer)
  | [] => none
  | e :: es =>
    match refStep c t e with
    | some (.done r out) => some (r, out, es)
    | some (.cont t') => refRun c t' es
    | none => none

/-- `DecodeRun(max_len, OUT, events)` of R170. -/
def decodeRun (c : Config) (maxLen : Nat) (out : Nat → Option Byte) (es : List SrcAnswer) :
    Option (DecResult × (Nat → Option Byte) × List SrcAnswer) :=
  refRun c ⟨.seek, 0, maxLen, .none, out⟩ es

end Sys2Proof.Machine
end

