-- ==== Sys2Proof/Certificates/Slice0/Obligations.lean ====
section
/-! DEFINITION. The statements about the model. Each docstring names the rule of spec/ it formalises; a statement that
rests on a choice of the spec's own ([decision] or [derived]) or of the model's log says so. -/

open Sys2Proof Sys2Proof.Machine

/-! ## Encoding -/

/-- Words written out from the tables R85 to R88 and R96 under the default parameters: one byte, several contexts. -/
def Obligations.TableWordsDecode : Prop :=
  decodeBytes Config.default .rxSeek [0xC0, 0x41] = .ok .seekEnd [0x41]
  ∧ decodeBytes Config.default .rxSeek [0xDB] = .ok (.seekSkip 0xDB) []
  ∧ decodeBytes Config.default (.rxCopy false) [0xC0] = .ok .copyEnd []
  ∧ decodeBytes Config.default (.rxCopy true) [0xC0] = .ok .copyEnd []
  ∧ decodeBytes Config.default (.rxCopy true) [0xDB] = .ok (.copyOvf 0xDB) []
  ∧ decodeBytes Config.default (.rxCopy false) [0xDB, 0xDC] = .ok .copyEsc [0xDC]
  ∧ decodeBytes Config.default (.rxCopy false) [0xDC] = .ok (.copyLit 0xDC) []
  ∧ decodeBytes Config.default .rxEscaped [0xDC] = .ok .escapedMend []
  ∧ decodeBytes Config.default .rxEscaped [0xDD] = .ok .escapedMesc []
  ∧ decodeBytes Config.default .rxEscaped [0xC0] = .ok (.escapedBad 0xC0) []
  ∧ decodeBytes Config.default .rxResync [0xC0] = .ok .resyncEnd []
  ∧ decodeBytes Config.default .rxResync [0xDB] = .ok (.resyncSkip 0xDB) []
  ∧ decodeBytes Config.default .tx [0xC0] = .ok .txEscd []
  ∧ decodeBytes Config.default .tx [0xDB] = .ok .txEsce []
  ∧ decodeBytes Config.default .tx [0xDD] = .ok (.txLit 0xDD) []
  ∧ decodeBytes Config.default .rxSeek [] = .noSymbol

/-- Decoding an operation's symbol in a context that has its row gives the operation back, with every operand, under
every admissible configuration (R85 to R88, R96), and takes exactly that symbol. -/
def Obligations.DecodeInvertsEncode : Prop :=
  ∀ (c : Config) (x : Context) (i : Instr) (rest : List Byte),
    c.admissible = true → i.wellFormed c = true → i.inContext x = true →
    decodeBytes c x (encode c i ++ rest) = .ok i rest

/-- R84: the tables are complete and their rows exclude one another: in every context each byte selects exactly one
operation. -/
def Obligations.ExactlyOneRowPerSymbol : Prop :=
  ∀ (c : Config) (x : Context) (b : Byte), c.admissible = true →
    ∃ i : Instr, (i.inContext x = true ∧ i.wellFormed c = true ∧ encode c i = [b] ∧ decodeBytes c x [b] = .ok i [])
      ∧ ∀ j : Instr, j.inContext x = true → j.wellFormed c = true → encode c j = [b] → j = i

/-- The opcode table read with masks and priorities, as R98 says (a decision of the spec's own, D1), and the tables
R85 to R88 and R96 read from the top select the same operation. -/
def Obligations.RowPriorityAgreesWithTables : Prop :=
  ∀ (c : Config) (x : Context) (b : Byte), c.admissible = true →
    (selectRow x b (symbolRows c)).map (fun r => r.make b) = some (decodeSymbol c x b)

/-! ## The step -/

/-- When an event selects an operation, the step is `exec` of that operation on the state with the event taken off
(R13, R162, R118; that the events stand in a list is the model's choice, log entry 4). -/
def Obligations.StepRunsSelectedOperation : Prop :=
  ∀ (s : State) (rest : List Event), s.cfg.admissible = true →
    (∀ m o, s.pending = .decode m o :: rest → step s = exec (.decode m o) { s with pending := rest })
    ∧ (∀ p n, s.pending = .encode p n :: rest → step s = exec (.encode p n) { s with pending := rest })
    ∧ (∀ b x i, s.pending = .src (.byte b) :: rest → rxContext s.dec = some x → decodeBytes s.cfg x [b] = .ok i [] →
        step s = exec i { s with pending := rest })
    ∧ (s.pending = .src .fail :: rest → s.dec.phase ≠ .idle → step s = exec .srcFail { s with pending := rest })
    ∧ (s.pending = .emit :: rest → s.enc.phase = .writing → s.enc.sub = .eOpen →
        step s = exec .txOpen { s with pending := rest })
    ∧ (s.pending = .emit :: rest → s.enc.phase = .writing → s.enc.sub = .eBody → s.enc.idx = s.enc.n →
        step s = exec .txClose { s with pending := rest })
    ∧ (∀ b i, s.pending = .emit :: rest → s.enc.phase = .writing → s.enc.sub = .eBody → s.enc.idx ≠ s.enc.n →
        memRead s.pay (s.enc.pay + s.enc.idx) = some b → decodeBytes s.cfg .tx [b] = .ok i [] →
        step s = exec i { s with pending := rest })

/-- R85, R87, R88: which operation a received byte runs in `SEEK`, `ESCAPED` and `RESYNC`. -/
def Obligations.ReceivedByteSelectsByPhase : Prop :=
  ∀ (s : State) (b : Byte) (rest : List Event),
    s.cfg.admissible = true → s.pending = .src (.byte b) :: rest →
    (s.dec.phase = .seek →
      step s = exec (if b = s.cfg.delim then .seekEnd else .seekSkip b) { s with pending := rest })
    ∧ (s.dec.phase = .escaped →
      step s = exec (if b = s.cfg.mEnd then .escapedMend
        else if b = s.cfg.mEsc then .escapedMesc else .escapedBad b) { s with pending := rest })
    ∧ (s.dec.phase = .resync →
      step s = exec (if b = s.cfg.delim then .resyncEnd else .resyncSkip b) { s with pending := rest })

/-- R164 and R86 (decision D6): the order of the tests in `COPY`. -/
def Obligations.CopyTestOrder : Prop :=
  ∀ (s : State) (b : Byte) (rest : List Event),
    s.cfg.admissible = true → s.pending = .src (.byte b) :: rest → s.dec.phase = .copy →
    step s = exec (if b = s.cfg.delim then .copyEnd
      else if s.dec.len = s.dec.cap then .copyOvf b
      else if b = s.cfg.esc then .copyEsc else .copyLit b) { s with pending := rest }

/-- An answer nobody asked for has no meaning: a source answer in `IDLE` (R54), a sink answer with no write outstanding
(R33), an emission step outside a call or after its end (R118). That the model refuses them is its choice (log entry 7). -/
def Obligations.UnaskedEventsRefused : Prop :=
  ∀ (s : State) (rest : List Event), s.cfg.admissible = true →
    (∀ a, s.pending = .src a :: rest → s.dec.phase = .idle → step s = .refused .noSrcReadOutstanding)
    ∧ (∀ a, s.pending = .sink a :: rest → s.enc.write = none → step s = .refused .noSinkWriteOutstanding)
    ∧ (s.pending = .emit :: rest → s.enc.phase = .idle ∨ s.enc.sub = .eDone → step s = .refused .nothingToEmit)

/-- R8 (whose last two constraints are decision D2): a step under parameters that are not pairwise distinct is refused. -/
def Obligations.InadmissibleParametersRefused : Prop :=
  ∀ s : State,
    (s.cfg.delim = s.cfg.esc ∨ s.cfg.mEnd = s.cfg.mEsc ∨ s.cfg.mEnd = s.cfg.delim ∨ s.cfg.mEsc = s.cfg.delim
      ∨ s.cfg.mEnd = s.cfg.esc ∨ s.cfg.mEsc = s.cfg.esc) →
    step s = .refused .inadmissibleConfig

/-- R178: as long as the source does not answer (and neither a command nor a reset comes, which are not answers), every
step leaves the decoder where it is, its call without a result and its buffer as it was; and with no event at all a step
is no change: R13, written as a step that answers the same state (the model's reading, log entry 5, DEDUCED). -/
def Obligations.UnansweredReadKeepsDecoder : Prop :=
  ∀ s t : State, s.cfg.admissible = true → step s = .next t →
    (∀ a rest, s.pending ≠ .src a :: rest) → (∀ m o rest, s.pending ≠ .decode m o :: rest) →
    (∀ k rest, s.pending ≠ .reset k :: rest) →
    t.dec = s.dec ∧ t.decResults = s.decResults
    ∧ (∀ a, ownedByDec s.dec a = true → memRead t.out a = memRead s.out a)
    ∧ (s.pending = [] → t = s)

/-! ## The decoder -/

/-- R140: the command latches its operands and the call begins in `SEEK`, whatever an earlier call left. The capacity 0
is among the lengths. -/
def Obligations.DecodeCommandStartsCall : Prop :=
  ∀ (s : State) (maxLen out : Nat), s.dec.phase = .idle → (∀ m, s.cfg.lenMax = some m → maxLen ≤ m) →
    exec (.decode maxLen out) s =
      .next { s with dec := { phase := .seek, len := 0, cap := maxLen, status := .none, out := out } }

/-- R142, R143: in `SEEK` a delimiter starts the frame and any other byte is discarded. -/
def Obligations.SeekSymbols : Prop :=
  ∀ (s : State) (b : Byte), s.dec.phase = .seek →
    exec .seekEnd s = .next { s with dec := { s.dec with phase := .copy } }
    ∧ exec (.seekSkip b) s = .next s

/-- R144: the closing delimiter ends the call with `Ok(d_len)`, for every length from 0 to the capacity. -/
def Obligations.ClosingDelimiterReturnsLength : Prop :=
  ∀ s : State, s.dec.phase = .copy →
    exec .copyEnd s = .next { s with
      dec := { s.dec with phase := .idle }
      decResults := s.decResults ++ [.ok s.dec.len] }

/-- R146 (decision D5): a byte at a full buffer raises `FrameTooLarge`; nothing is written to `OUT`. -/
def Obligations.FullBufferRaisesFrameTooLarge : Prop :=
  ∀ (s : State) (b : Byte), s.dec.phase = .copy → s.dec.len = s.dec.cap →
    exec (.copyOvf b) s = .next { s with
      dec := { s.dec with status := .frameTooLarge, len := 0, phase := .resync } }

/-- R150: the escape byte goes to `ESCAPED` and is not appended. -/
def Obligations.EscapeByteEntersEscaped : Prop :=
  ∀ s : State, s.dec.phase = .copy → s.dec.len < s.dec.cap →
    exec .copyEsc s = .next { s with dec := { s.dec with phase := .escaped } }

/-- R148: a literal is stored at `OUT[d_len]` and the length grows by one. -/
def Obligations.LiteralIsAppended : Prop :=
  ∀ (s : State) (b : Byte), s.dec.phase = .copy → s.dec.len < s.dec.cap →
    exec (.copyLit b) s = .next { s with
      out := memWrite s.out (s.dec.out + s.dec.len) b
      dec := { s.dec with len := s.dec.len + 1 } }

/-- The pseudocode of R152 and R153: a marker after the escape byte appends what it stands for and goes back to `COPY`.
Their remark that nothing else puts these values into `OUT` is `NoRawReservedByteStored`. -/
def Obligations.MarkersAppendReservedBytes : Prop :=
  ∀ s : State, s.dec.phase = .escaped → s.dec.len < s.dec.cap →
    exec .escapedMend s = .next { s with
      out := memWrite s.out (s.dec.out + s.dec.len) s.cfg.delim
      dec := { s.dec with len := s.dec.len + 1, phase := .copy } }
    ∧ exec .escapedMesc s = .next { s with
      out := memWrite s.out (s.dec.out + s.dec.len) s.cfg.esc
      dec := { s.dec with len := s.dec.len + 1, phase := .copy } }

/-- R154: any other byte after the escape byte aborts the frame; the delimiter and the escape byte are among them. -/
def Obligations.BadEscapeAbortsFrame : Prop :=
  ∀ (s : State) (b : Byte), s.dec.phase = .escaped →
    exec (.escapedBad b) s = .next { s with
      dec := { s.dec with status := .invalidEscape, len := 0, phase := .resync } }
    ∧ (s.cfg.admissible = true → decodeBytes s.cfg .rxEscaped [s.cfg.delim] = .ok (.escapedBad s.cfg.delim) []
        ∧ decodeBytes s.cfg .rxEscaped [s.cfg.esc] = .ok (.escapedBad s.cfg.esc) [])

/-- R156, R157: in `RESYNC` a delimiter delivers the pending error and any other byte is discarded. That `d_status` keeps
the error in `IDLE` is the model's reading of the pseudocode, against the words of R27 (log entry 11, DEDUCED). -/
def Obligations.ResyncSymbols : Prop :=
  ∀ (s : State) (b : Byte), s.dec.phase = .resync →
    (s.dec.status = .invalidEscape →
      exec .resyncEnd s = .next { s with
        dec := { s.dec with phase := .idle }
        decResults := s.decResults ++ [.err .invalidEscape] })
    ∧ (s.dec.status = .frameTooLarge →
      exec .resyncEnd s = .next { s with
        dec := { s.dec with phase := .idle }
        decResults := s.decResults ++ [.err .frameTooLarge] })
    ∧ exec (.resyncSkip b) s = .next s

/-- R160: a failure of the source ends the call at once, in every phase of a call. That a pending error is not reported is
the spec's own decision D10 (log entry 8, DESIGN CHOICE); that `d_status` is kept is the model's reading, against the
words of R27 (log entry 11, DEDUCED). -/
def Obligations.SourceFailureEndsCall : Prop :=
  ∀ s : State, s.dec.phase ≠ .idle →
    exec .srcFail s = .next { s with
      dec := { s.dec with len := 0, phase := .idle }
      decResults := s.decResults ++ [.err .transportFailure] }

/-- An operation executed where its table does not have its row stops, by name (R84, R86, R96, R118; that it is a
refusal is the model's choice, log entry 18). A store at or beyond the capacity (R52) and a `RESYNC` without an error
(R27) are faults (log entries 22 and 26); no state that keeps `decoderInv` comes there. -/
def Obligations.RowsOutOfPlaceStop : Prop :=
  ∀ (s : State) (b : Byte),
    (s.dec.phase ≠ .seek → exec .seekEnd s = .refused .rowNotSelected
      ∧ exec (.seekSkip b) s = .refused .rowNotSelected)
    ∧ (s.dec.phase ≠ .copy → exec .copyEnd s = .refused .rowNotSelected)
    ∧ (s.dec.phase ≠ .copy ∨ s.dec.len ≠ s.dec.cap → exec (.copyOvf b) s = .refused .rowNotSelected)
    ∧ (s.dec.phase ≠ .copy ∨ s.dec.cap ≤ s.dec.len → exec .copyEsc s = .refused .rowNotSelected
      ∧ exec (.copyLit b) s = .refused .rowNotSelected)
    ∧ (s.dec.phase ≠ .escaped → exec .escapedMend s = .refused .rowNotSelected
      ∧ exec .escapedMesc s = .refused .rowNotSelected ∧ exec (.escapedBad b) s = .refused .rowNotSelected)
    ∧ (s.dec.phase ≠ .resync → exec .resyncEnd s = .refused .rowNotSelected
      ∧ exec (.resyncSkip b) s = .refused .rowNotSelected)
    ∧ (s.dec.phase = .idle → exec .srcFail s = .refused .rowNotSelected)
    ∧ (s.dec.phase = .escaped → s.dec.cap ≤ s.dec.len →
      exec .escapedMend s = .fault .outIndexBeyondCapacity ∧ exec .escapedMesc s = .fault .outIndexBeyondCapacity)
    ∧ (s.dec.phase = .resync → s.dec.status = .none → exec .resyncEnd s = .fault .resyncWithoutError)
    ∧ (s.enc.phase = .idle ∨ s.enc.sub ≠ .eOpen → exec .txOpen s = .refused .rowNotSelected)
    ∧ (s.enc.phase = .idle ∨ s.enc.sub ≠ .eBody ∨ s.enc.n ≤ s.enc.idx →
        exec (.txLit b) s = .refused .rowNotSelected ∧ exec .txEscd s = .refused .rowNotSelected
        ∧ exec .txEsce s = .refused .rowNotSelected)
    ∧ (s.enc.phase = .idle ∨ s.enc.sub ≠ .eBody ∨ s.enc.idx ≠ s.enc.n →
        exec .txClose s = .refused .rowNotSelected)

/-- The frame of every decoder operation: the encoder, `PAY`, the outbound stream, the parameters and the pending events
are unchanged; of the decoder's registers only those the rules name change; and every byte of `OUT` reads as before but
the one at `OUT[d_len]`, and that one only for the three operations that append (R26, R28, R52). That `RESYNC.END` and
`SRC.FAIL` leave `d_status` is the model's reading, against the words of R27 (log entry 11, DEDUCED). -/
def Obligations.DecoderFrame : Prop :=
  ∀ (i : Instr) (s t : State), decOperation i = true → exec i s = .next t →
    t.cfg = s.cfg ∧ t.enc = s.enc ∧ t.pay = s.pay ∧ t.tx = s.tx ∧ t.encResults = s.encResults
    ∧ t.pending = s.pending
    ∧ ((∀ m o, i ≠ .decode m o) → t.dec.cap = s.dec.cap ∧ t.dec.out = s.dec.out)
    ∧ (writesLen i = false → t.dec.len = s.dec.len)
    ∧ (writesStatus i = false → t.dec.status = s.dec.status)
    ∧ (endsCall i = false → t.decResults = s.decResults)
    ∧ (∀ a, (appends i = true → a ≠ outAddr s.dec) → memRead t.out a = memRead s.out a)

/-! ## The encoder -/

/-- R110: the command latches its operands and issues the one write of the frame. The payload is what the caller placed
in `PAY[0 .. n)`. The values of `sub` and `emitted` are the model's own byte-serial progress, which R110 does not give
(log entry 16, DESIGN CHOICE). -/
def Obligations.EncodeCommandIssuesFrame : Prop :=
  ∀ (s : State) (pay n : Nat) (p : List Byte), s.enc.phase = .idle → (∀ m, s.cfg.lenMax = some m → n ≤ m) →
    memReadBytes s.pay pay n = some p →
    exec (.encode pay n) s = .next { s with
      enc := { phase := .writing, n := n, idx := 0, pay := pay, write := some (frame s.cfg p), sub := .eOpen,
               emitted := [] } }

/-- R111, R141 (decision D13): a command to a busy unit has no meaning; nor has one with a length above `LEN_MAX` (the
range of R42); and a payload byte that the caller never placed has no value (R51, R233; log entry 13). -/
def Obligations.CommandsStop : Prop :=
  ∀ (s : State) (a n : Nat),
    (s.dec.phase ≠ .idle → exec (.decode n a) s = .refused .decoderBusy)
    ∧ (∀ m, s.dec.phase = .idle → s.cfg.lenMax = some m → m < n →
        exec (.decode n a) s = .refused .lengthAboveMax)
    ∧ (s.enc.phase = .writing → exec (.encode a n) s = .refused .encoderBusy)
    ∧ (∀ m, s.enc.phase = .idle → s.cfg.lenMax = some m → m < n →
        exec (.encode a n) s = .refused .lengthAboveMax)
    ∧ (∀ i, s.enc.phase = .idle → (∀ m, s.cfg.lenMax = some m → n ≤ m) → i < n → memRead s.pay (a + i) = none →
        exec (.encode a n) s = .fault .payByteNotPlaced)

/-- R112: `Frame(p) = [DELIM] ++ Esc(p[0]) ++ … ++ Esc(p[n-1]) ++ [DELIM]`. -/
def Obligations.FrameIsEscapedPayload : Prop :=
  ∀ (c : Config) (p : List Byte),
    frame c p = [c.delim]
      ++ p.flatMap (fun b => if b = c.delim then [c.esc, c.mEnd] else if b = c.esc then [c.esc, c.mEsc] else [b])
      ++ [c.delim]

/-- R113 to R117: what each emission rule emits, and how the progress of the call moves (the progress is the model's own
record, log entry 16). The delimiters are emitted also for the empty payload. -/
def Obligations.EmissionRules : Prop :=
  ∀ (s : State) (b : Byte), s.enc.phase = .writing →
    (s.enc.sub = .eOpen →
      exec .txOpen s = .next { s with
        enc := { s.enc with emitted := s.enc.emitted ++ [s.cfg.delim], sub := .eBody } })
    ∧ (s.enc.sub = .eBody → s.enc.idx < s.enc.n →
      exec (.txLit b) s = .next { s with
        enc := { s.enc with emitted := s.enc.emitted ++ [b], idx := s.enc.idx + 1 } }
      ∧ exec .txEscd s = .next { s with
        enc := { s.enc with emitted := s.enc.emitted ++ [s.cfg.esc, s.cfg.mEnd], idx := s.enc.idx + 1 } }
      ∧ exec .txEsce s = .next { s with
        enc := { s.enc with emitted := s.enc.emitted ++ [s.cfg.esc, s.cfg.mEsc], idx := s.enc.idx + 1 } })
    ∧ (s.enc.sub = .eBody → s.enc.idx = s.enc.n →
      exec .txClose s = .next { s with
        enc := { s.enc with emitted := s.enc.emitted ++ [s.cfg.delim], sub := .eDone } })

/-- The frame of every encoder operation: the decoder, both buffer spaces (byte for byte), the outbound stream, the
results, the parameters and the pending events are unchanged, and an emission leaves the latched operands and the
outstanding write alone (R22, R32, R69). That an emission leaves the outbound stream as it is, where R118 allows flushing
byte by byte, is the model's choice (log entry 16, DESIGN CHOICE). -/
def Obligations.EncoderFrame : Prop :=
  ∀ (i : Instr) (s t : State), decOperation i = false → exec i s = .next t →
    t.cfg = s.cfg ∧ t.dec = s.dec ∧ (∀ a, memRead t.out a = memRead s.out a)
    ∧ (∀ a, memRead t.pay a = memRead s.pay a) ∧ t.tx = s.tx ∧ t.decResults = s.decResults
    ∧ t.encResults = s.encResults ∧ t.pending = s.pending
    ∧ ((∀ p n, i ≠ .encode p n) → t.enc.phase = s.enc.phase ∧ t.enc.n = s.enc.n ∧ t.enc.pay = s.enc.pay
        ∧ t.enc.write = s.enc.write)

/-- R120: on `Ok` the stream has been extended by exactly the bytes of the outstanding write, which is the frame of the
payload in every state that keeps `encoderInv`, and the call ends with `Ok`. -/
def Obligations.SinkOkEndsCall : Prop :=
  ∀ (s : State) (f : List Byte) (rest : List Event),
    s.cfg.admissible = true → s.pending = .sink .ok :: rest → s.enc.write = some f →
    step s = .next { s with
      pending := rest
      tx := s.tx ++ f
      enc := { s.enc with phase := .idle, write := none }
      encResults := s.encResults ++ [.ok] }
    ∧ (encoderInv s → ∃ p, memReadBytes s.pay s.enc.pay s.enc.n = some p ∧ f = frame s.cfg p)

/-- R121: on `Fail` the stream has been extended by some part of the frame from its start and the call ends with
`Err(TRANSPORT_FAILURE)`; nothing is resent. That the part is unknown is the spec's own decision D9 (R57); that the
environment's draw stands in the event is the model's choice (log entry 9, DESIGN CHOICE). -/
def Obligations.SinkFailureEndsCall : Prop :=
  ∀ (s : State) (f sent : List Byte) (k : Nat) (rest : List Event),
    s.cfg.admissible = true → s.enc.write = some f →
    (s.pending = .sink (.fail k) :: rest → ∃ u v, f = u ++ v ∧ step s = .next { s with
      pending := rest
      tx := s.tx ++ u
      enc := { s.enc with phase := .idle, write := none }
      encResults := s.encResults ++ [.transportFailure] })
    ∧ (encoderInv s → ∃ p, memReadBytes s.pay s.enc.pay s.enc.n = some p ∧ f = frame s.cfg p)
    ∧ (sent <+: f → s.pending = .sink (.fail sent.length) :: rest → step s = .next { s with
      pending := rest
      tx := s.tx ++ sent
      enc := { s.enc with phase := .idle, write := none }
      encResults := s.encResults ++ [.transportFailure] })

/-- R122: a command whose payload is placed and whose length the port can carry is accepted, whatever the bytes are; and
the only error an encode call can report is the sink's `Fail`: no other event delivers a result. -/
def Obligations.EncodeResultsComeFromSink : Prop :=
  (∀ (s : State) (a : Nat) (p : List Byte), s.enc.phase = .idle → (∀ m, s.cfg.lenMax = some m → p.length ≤ m) →
    memReadBytes s.pay a p.length = some p → ∃ t, exec (.encode a p.length) s = .next t)
  ∧ ∀ s t : State, step s = .next t → t.encResults ≠ s.encResults →
    (∃ rest, s.pending = .sink .ok :: rest ∧ t.encResults = s.encResults ++ [.ok])
    ∨ (∃ k rest, s.pending = .sink (.fail k) :: rest ∧ t.encResults = s.encResults ++ [.transportFailure])

/-- R118, derived in the spec from R112: the emission steps of a call, run one after another, put out the frame that the
outstanding write holds. -/
def Obligations.EmissionYieldsFrame : Prop :=
  ∀ (s : State) (pay : Nat) (p : List Byte) (rest : List Event),
    s.cfg.admissible = true → s.enc.phase = .idle → (∀ m, s.cfg.lenMax = some m → p.length ≤ m) →
    memReadBytes s.pay pay p.length = some p →
    ∃ t, steps (p.length + 3)
        { s with pending := .encode pay p.length :: (List.replicate (p.length + 2) .emit ++ rest) } = .next t
      ∧ t.enc.emitted = frame s.cfg p ∧ t.enc.write = some (frame s.cfg p) ∧ t.enc.sub = .eDone
      ∧ t.enc.idx = p.length ∧ t.pending = rest ∧ t.tx = s.tx

/-- R118, derived in the spec from R112: the byte-serial machine emits the frame, byte for byte, stops in `E_DONE`, and
then emits nothing more. -/
def Obligations.SerialFormYieldsFrame : Prop :=
  ∀ (c : Config) (p : List Byte),
    ∃ k, ∀ j, serialRun c p (k + j) serialStart = { phase := .eDone, idx := p.length, emitted := frame c p }

/-- R124, derived in the spec: the length of a frame. -/
def Obligations.FrameLengthFormula : Prop :=
  ∀ (c : Config) (p : List Byte), c.admissible = true →
    (frame c p).length = 2 + p.length + (p.count c.delim + p.count c.esc)

/-- R125: no delimiter between the first and the last byte of a frame. -/
def Obligations.NoRawDelimiterInTransit : Prop :=
  ∀ (c : Config) (p : List Byte), c.admissible = true → c.delim ∉ ((frame c p).drop 1).dropLast

/-- R126: a frame's body is a sequence of literals and pairs, and the escape byte stands in it only before a marker. -/
def Obligations.EscapeOnlyStartsPairs : Prop :=
  ∀ (c : Config) (p : List Byte), c.admissible = true →
    (∃ parts : List (List Byte), frame c p = [c.delim] ++ parts.flatten ++ [c.delim]
      ∧ ∀ e ∈ parts, (∃ b, e = [b] ∧ b ≠ c.delim ∧ b ≠ c.esc) ∨ e = [c.esc, c.mEnd] ∨ e = [c.esc, c.mEsc])
    ∧ (∀ before after, frame c p = before ++ c.esc :: after →
        ∃ after', after = c.mEnd :: after' ∨ after = c.mEsc :: after')

/-- R127, derived in the spec: different payloads have different frames. -/
def Obligations.FrameInjective : Prop :=
  ∀ (c : Config) (p q : List Byte), c.admissible = true → frame c p = frame c q → p = q

/-- R128, derived in the spec: the outbound stream after successful calls is their frames one after another. -/
def Obligations.SuccessiveFramesConcatenate : Prop :=
  ∀ (s : State) (calls : List (Nat × List Byte)) (rest : List Event),
    s.cfg.admissible = true → s.cfg.lenMax = none → s.enc.phase = .idle →
    (∀ x ∈ calls, memReadBytes s.pay x.1 x.2.length = some x.2) →
    ∃ t, steps (2 * calls.length)
        { s with pending := calls.flatMap (fun x => [.encode x.1 x.2.length, .sink .ok]) ++ rest } = .next t
      ∧ t.tx = s.tx ++ calls.flatMap (fun x => frame s.cfg x.2)
      ∧ t.encResults = s.encResults ++ calls.map (fun _ => .ok)
      ∧ t.enc.phase = .idle ∧ t.pending = rest

/-! ## Reset, invariants, isolation -/

/-- R40, R230, R7 (decisions D12, D2): after reset both units are idle, no write is outstanding, nothing is pending, and
the parameters are R7's. The other registers' values and the empty buffers and streams are the model's choice (log
entries 3, 10 and 25). -/
def Obligations.ResetLeavesUnitsIdle : Prop :=
  State.reset.dec.phase = .idle ∧ State.reset.enc.phase = .idle ∧ State.reset.enc.write = none
  ∧ State.reset.decResults = [] ∧ State.reset.encResults = [] ∧ State.reset.pending = []
  ∧ State.reset.cfg.delim = 0xC0 ∧ State.reset.cfg.esc = 0xDB ∧ State.reset.cfg.mEnd = 0xDC
  ∧ State.reset.cfg.mEsc = 0xDD ∧ State.reset.cfg.admissible = true
  ∧ step State.reset = .next State.reset

/-- R230, R231 (decision D12): a reset in any state makes both units idle and abandons their calls without a result; the
buffers stay; of a write in progress an unknown part from its start is on the wire. -/
def Obligations.ResetEventAbandonsCalls : Prop :=
  ∀ (s : State) (k : Nat) (rest : List Event),
    s.cfg.admissible = true → s.pending = .reset k :: rest →
    ∃ t, step s = .next t ∧ t.dec.phase = .idle ∧ t.enc.phase = .idle ∧ t.enc.write = none
      ∧ t.decResults = s.decResults ∧ t.encResults = s.encResults ∧ t.out = s.out ∧ t.pay = s.pay
      ∧ t.cfg = s.cfg ∧ t.pending = rest
      ∧ (s.enc.write = none → t.tx = s.tx)
      ∧ (∀ f, s.enc.write = some f → t.tx = s.tx ++ f.take k)

/-- The three invariants hold at reset. For the registers that R40 leaves unspecified this rests on the values the model
names (log entry 10, DESIGN CHOICE), and for the two buffer spaces on their being empty (log entry 25, DESIGN CHOICE). -/
def Obligations.InvariantsHoldAtReset : Prop :=
  decoderInv State.reset ∧ encoderInv State.reset ∧ memoryInv State.reset

/-- R29 (a) to (d) and R27, derived in the spec: every step keeps the decoder's invariant, which says nothing of
`d_status` in `IDLE` (log entry 11). -/
def Obligations.StepKeepsDecoderInvariant : Prop :=
  ∀ s t : State, decoderInv s → step s = .next t → decoderInv t

/-- R33, derived in the spec, with the byte-serial progress of R118: every step keeps the encoder's invariant; in
`WRITING` the one outstanding write is the frame of what `PAY` holds. -/
def Obligations.StepKeepsEncoderInvariant : Prop :=
  ∀ s t : State, encoderInv s → step s = .next t → encoderInv t

/-- Every step keeps both buffer spaces in canonical form and the parameters as they are. -/
def Obligations.StepKeepsMemoryCanonical : Prop :=
  ∀ s t : State, memoryInv s → step s = .next t → memoryInv t ∧ t.cfg = s.cfg

/-- R52: a store sets the byte at its address, leaves every other, keeps the canonical form and is idempotent. -/
def Obligations.StoreSetsOneByte : Prop :=
  ∀ (m : Memory) (a : Nat) (v : Byte),
    memRead (memWrite m a v) a = some v
    ∧ (∀ x, x ≠ a → memRead (memWrite m a v) x = memRead m x)
    ∧ (m.wf = true → (memWrite m a v).wf = true)
    ∧ memWrite (memWrite m a v) a v = memWrite m a v

/-- R22: a step of one unit writes nothing of the other, and what it does to its own unit depends on nothing of the
other. -/
def Obligations.UnitsShareNoState : Prop :=
  ∀ (s s' t : State) (e : Event) (rest rest' : List Event),
    s.pending = e :: rest → s'.pending = e :: rest' → s'.cfg = s.cfg → step s = .next t →
    (decEvent e = true →
      (t.enc = s.enc ∧ t.pay = s.pay ∧ t.tx = s.tx ∧ t.encResults = s.encResults)
      ∧ (s'.dec = s.dec → s'.out = s.out → s'.decResults = s.decResults →
          ∃ t', step s' = .next t' ∧ t'.dec = t.dec ∧ t'.out = t.out ∧ t'.decResults = t.decResults))
    ∧ (encEvent e = true →
      (t.dec = s.dec ∧ t.out = s.out ∧ t.decResults = s.decResults)
      ∧ (s'.enc = s.enc → s'.pay = s.pay → s'.tx = s.tx → s'.encResults = s.encResults →
          ∃ t', step s' = .next t' ∧ t'.enc = t.enc ∧ t'.pay = t.pay ∧ t'.tx = t.tx
            ∧ t'.encResults = t.encResults))

/-- R69: during a call the caller may neither read nor write what the decoder owns, nor write what the encoder owns; it
may read the payload, and outside the owned ranges it may do both. That accesses are events, and that every access
outside the owned ranges is done, is the model's choice (log entry 15, DESIGN CHOICE); so is that a unit which a reset
made idle owns nothing (log entry 29, DESIGN CHOICE). -/
def Obligations.CallerAccessRespectsOwnership : Prop :=
  ∀ (s : State) (a : Nat) (v : Byte) (rest : List Event), s.cfg.admissible = true →
    (s.dec.phase ≠ .idle → s.dec.out ≤ a → a < s.dec.out + s.dec.cap →
      (s.pending = .caller (.readOut a) :: rest → step s = .refused .bufferOwnedByCall)
      ∧ (s.pending = .caller (.writeOut a v) :: rest → step s = .refused .bufferOwnedByCall))
    ∧ (s.enc.phase = .writing → s.enc.pay ≤ a → a < s.enc.pay + s.enc.n →
      s.pending = .caller (.writePay a v) :: rest → step s = .refused .bufferOwnedByCall)
    ∧ (s.pending = .caller (.readPay a) :: rest → step s = .next { s with pending := rest })
    ∧ (s.dec.phase = .idle ∨ a < s.dec.out ∨ s.dec.out + s.dec.cap ≤ a →
      (s.pending = .caller (.readOut a) :: rest → step s = .next { s with pending := rest })
      ∧ (s.pending = .caller (.writeOut a v) :: rest →
          step s = .next { s with pending := rest, out := memWrite s.out a v }))
    ∧ (s.enc.phase = .idle ∨ a < s.enc.pay ∨ s.enc.pay + s.enc.n ≤ a →
      s.pending = .caller (.writePay a v) :: rest →
        step s = .next { s with pending := rest, pay := memWrite s.pay a v })

/-! ## The decoder's laws -/

/-- R170, derived in the spec: from every state that keeps the decoder's invariant, one answer of the source does exactly
what the one step function says, `Cont` or `Done`. -/
def Obligations.DecoderRefinesStepFunction : Prop :=
  ∀ (s : State) (a : SrcAnswer) (rest : List Event),
    s.cfg.admissible = true → decoderInv s → s.dec.phase ≠ .idle → s.pending = .src a :: rest →
    ∃ t, step s = .next t ∧ t.pending = rest ∧
      ((∃ r, refStep s.cfg (refView s) a = some (.cont r) ∧ refView t = r ∧ t.decResults = s.decResults)
      ∨ (∃ r o, refStep s.cfg (refView s) a = some (.done r o) ∧ t.dec.phase = .idle
          ∧ t.decResults = s.decResults ++ [r] ∧ (refView t).out = o))

/-- R170's `DecodeRun`, derived in the spec: whenever the run of the one step function finishes, the machine delivers its
result, leaves its buffer, and leaves its unconsumed events to the next call. -/
def Obligations.DecodeCallRefinesDecodeRun : Prop :=
  ∀ (s : State) (maxLen o : Nat) (es left : List SrcAnswer) (rest : List Event) (r : DecResult)
    (buf : Nat → Option Byte),
    s.cfg.admissible = true → s.dec.phase = .idle → (∀ m, s.cfg.lenMax = some m → maxLen ≤ m) →
    decodeRun s.cfg maxLen (fun i => memRead s.out (o + i)) es = some (r, buf, left) →
    ∃ t, steps (1 + (es.length - left.length)) { s with pending := .decode maxLen o :: (srcEvents es ++ rest) } = .next t
      ∧ t.dec.phase = .idle ∧ t.decResults = s.decResults ++ [r] ∧ (∀ i, memRead t.out (o + i) = buf i)
      ∧ t.pending = srcEvents left ++ rest

/-- R29 (e), derived in the spec: after a start delimiter and the body of `q`, the decoder is in `COPY` with
`OUT[0 .. d_len) = q`. -/
def Obligations.CopiedBytesDecodeTheBody : Prop :=
  ∀ (s : State) (q : List Byte) (maxLen o : Nat) (rest : List Event),
    s.cfg.admissible = true → s.dec.phase = .idle → (∀ m, s.cfg.lenMax = some m → maxLen ≤ m) → q.length ≤ maxLen →
    ∃ t, steps (2 + (frameBody s.cfg q).length)
        { s with pending := .decode maxLen o :: (srcBytes (s.cfg.delim :: frameBody s.cfg q) ++ rest) } = .next t
      ∧ t.dec = { phase := .copy, len := q.length, cap := maxLen, status := .none, out := o }
      ∧ memReadBytes t.out o q.length = some q ∧ t.decResults = s.decResults ∧ t.pending = rest

/-- R180: `decode(encode(p)) == p`: the encoder puts the frame of the payload on the wire, and those bytes, fed to the
decoder with a buffer that is large enough, give the payload back and leave every later byte. -/
def Obligations.RoundTrip : Prop :=
  ∀ (s : State) (p : List Byte) (pay maxLen o : Nat) (rest : List Event),
    s.cfg.admissible = true → s.enc.phase = .idle → s.dec.phase = .idle →
    (∀ m, s.cfg.lenMax = some m → maxLen ≤ m) → p.length ≤ maxLen → memReadBytes s.pay pay p.length = some p →
    ∃ t, steps (3 + (frame s.cfg p).length)
        { s with pending := .encode pay p.length :: .sink .ok :: .decode maxLen o ::
            (srcBytes (frame s.cfg p) ++ rest) } = .next t
      ∧ t.tx = s.tx ++ frame s.cfg p ∧ t.encResults = s.encResults ++ [.ok]
      ∧ t.decResults = s.decResults ++ [.ok p.length] ∧ memReadBytes t.out o p.length = some p
      ∧ t.pending = rest ∧ t.dec.phase = .idle ∧ t.enc.phase = .idle

/-- R181: noise without a delimiter before a frame is ignored. -/
def Obligations.NoiseBeforeFrameIsIgnored : Prop :=
  ∀ (s : State) (noise p : List Byte) (maxLen o : Nat) (rest : List Event),
    s.cfg.admissible = true → s.dec.phase = .idle → (∀ m, s.cfg.lenMax = some m → maxLen ≤ m) →
    s.cfg.delim ∉ noise → p.length ≤ maxLen →
    ∃ t, steps (1 + noise.length + (frame s.cfg p).length)
        { s with pending := .decode maxLen o :: (srcBytes (noise ++ frame s.cfg p) ++ rest) } = .next t
      ∧ t.decResults = s.decResults ++ [.ok p.length] ∧ memReadBytes t.out o p.length = some p
      ∧ t.pending = rest ∧ t.dec.phase = .idle

/-- R182: a bad escape is reported as an error, `OUT` untouched, and the next frame decodes; with capacity 0 the first
call reports `FRAME_TOO_LARGE` instead. -/
def Obligations.BadEscapeIsRejected : Prop :=
  ∀ (s : State) (x : Byte) (p : List Byte) (maxLen maxLen' o o' : Nat) (rest : List Event),
    s.cfg.admissible = true → s.dec.phase = .idle → (∀ m, s.cfg.lenMax = some m → maxLen ≤ m ∧ maxLen' ≤ m) →
    x ≠ s.cfg.mEnd → x ≠ s.cfg.mEsc →
    (1 ≤ maxLen → p.length ≤ maxLen' → ∃ t u,
      steps 5 { s with
        pending := .decode maxLen o :: (srcBytes [s.cfg.delim, s.cfg.esc, x, s.cfg.delim] ++
          (.decode maxLen' o' :: (srcBytes (frame s.cfg p) ++ rest))) } = .next t
      ∧ t.decResults = s.decResults ++ [.err .invalidEscape] ∧ t.out = s.out ∧ t.dec.phase = .idle
      ∧ t.pending = .decode maxLen' o' :: (srcBytes (frame s.cfg p) ++ rest)
      ∧ steps (1 + (frame s.cfg p).length) t = .next u
      ∧ u.decResults = s.decResults ++ [.err .invalidEscape, .ok p.length]
      ∧ memReadBytes u.out o' p.length = some p ∧ u.pending = rest)
    ∧ (maxLen = 0 → ∃ k t,
      steps k { s with
        pending := .decode maxLen o :: (srcBytes [s.cfg.delim, s.cfg.esc, x, s.cfg.delim] ++ rest) } = .next t
      ∧ t.decResults = s.decResults ++ [.err .frameTooLarge] ∧ t.dec.phase = .idle)

/-- R183: two delimiters are an empty frame, for every capacity; `OUT` is untouched. -/
def Obligations.EmptyFrameDecodes : Prop :=
  ∀ (s : State) (maxLen o : Nat) (rest : List Event),
    s.cfg.admissible = true → s.dec.phase = .idle → (∀ m, s.cfg.lenMax = some m → maxLen ≤ m) →
    ∃ t, steps 3 { s with
        pending := .decode maxLen o :: (srcBytes [s.cfg.delim, s.cfg.delim] ++ rest) } = .next t
      ∧ t.decResults = s.decResults ++ [.ok 0] ∧ t.out = s.out ∧ t.pending = rest ∧ t.dec.phase = .idle

/-- R184: a payload that fills the buffer exactly succeeds; a longer one is `FrameTooLarge`, its frame is consumed whole,
and no byte outside the buffer changes. -/
def Obligations.CapacityBoundary : Prop :=
  ∀ (s : State) (p : List Byte) (n o : Nat) (rest : List Event),
    s.cfg.admissible = true → s.dec.phase = .idle → (∀ m, s.cfg.lenMax = some m → n ≤ m) → n ≤ p.length →
    ∃ t, steps (1 + (frame s.cfg p).length)
        { s with pending := .decode n o :: (srcBytes (frame s.cfg p) ++ rest) } = .next t
      ∧ t.pending = rest ∧ t.dec.phase = .idle
      ∧ (p.length = n → t.decResults = s.decResults ++ [.ok n] ∧ memReadBytes t.out o n = some p)
      ∧ (n < p.length → t.decResults = s.decResults ++ [.err .frameTooLarge])
      ∧ (∀ a, (a < o ∨ o + n ≤ a) → memRead t.out a = memRead s.out a)

/-- R185: the last byte a call consumes before any result but `Err(TRANSPORT_FAILURE)` is a delimiter, read in `COPY` before
`Ok` (R144) and in `RESYNC` before the two errors (R156), and the unit is then idle. -/
def Obligations.ResultsFollowDelimiter : Prop :=
  ∀ (s t : State) (r : DecResult), step s = .next t → t.decResults = s.decResults ++ [r] →
    r ≠ .err .transportFailure →
    (∃ rest, s.pending = .src (.byte s.cfg.delim) :: rest) ∧ t.dec.phase = .idle
    ∧ (∀ n, r = .ok n → s.dec.phase = .copy) ∧ (∀ e, r = .err e → s.dec.phase = .resync)

/-- R186, derived in the spec: the reserved bytes enter `OUT` only through the markers; a byte copied from the wire is
neither. -/
def Obligations.NoRawReservedByteStored : Prop :=
  ∀ (s t : State) (b v : Byte) (a : Nat) (rest : List Event),
    s.pending = .src (.byte b) :: rest → step s = .next t →
    memRead t.out a = some v → memRead s.out a ≠ some v →
    (s.dec.phase = .copy ∧ v = b ∧ b ≠ s.cfg.delim ∧ b ≠ s.cfg.esc)
    ∨ (s.dec.phase = .escaped ∧ ((b = s.cfg.mEnd ∧ v = s.cfg.delim) ∨ (b = s.cfg.mEsc ∧ v = s.cfg.esc)))

/-- R187: two decode calls with the same capacity and the same answers end alike, whatever came before. -/
def Obligations.CallsDependOnTheirEventsOnly : Prop :=
  ∀ (s s' t : State) (maxLen o : Nat) (es : List SrcAnswer) (rest rest' : List Event),
    s'.cfg = s.cfg → s'.dec.phase = .idle → s.dec.phase = .idle →
    steps (1 + es.length) { s with pending := .decode maxLen o :: (srcEvents es ++ rest) } = .next t →
    ∃ t' rs, steps (1 + es.length) { s' with pending := .decode maxLen o :: (srcEvents es ++ rest') } = .next t'
      ∧ t'.dec = t.dec ∧ t.decResults = s.decResults ++ rs ∧ t'.decResults = s'.decResults ++ rs
      ∧ (∀ i, i < t.dec.len → memRead t'.out (o + i) = memRead t.out (o + i))

/-- R240, derived in the spec: a call that ends without a transport failure has consumed two delimiters, or three, and
then a delimiter directly after an escape byte ended in `INVALID_ESCAPE`. With R252: it has consumed at least two bytes. -/
def Obligations.DelimitersConsumedByACall : Prop :=
  ∀ (s t : State) (maxLen o : Nat) (bs : List Byte) (rest : List Event),
    s.dec.phase = .idle →
    steps (1 + bs.length) { s with pending := .decode maxLen o :: (srcBytes bs ++ rest) } = .next t →
    t.dec.phase = .idle →
    2 ≤ bs.length ∧ ∃ r, t.decResults = s.decResults ++ [r] ∧ bs.getLast? = some s.cfg.delim
      ∧ (bs.count s.cfg.delim = 2
        ∨ (bs.count s.cfg.delim = 3 ∧ r = .err .invalidEscape
            ∧ ∃ before after, bs = before ++ [s.cfg.esc, s.cfg.delim] ++ after))

/-- R241 and R242, derived in the spec: after a stray delimiter the frame's own opening delimiter ends an empty frame; a
frame cut short is returned whole when the next frame's opening delimiter comes. -/
def Obligations.MisalignmentHazards : Prop :=
  ∀ (s : State) (p q : List Byte) (maxLen o : Nat) (rest : List Event),
    s.cfg.admissible = true → s.dec.phase = .idle → (∀ m, s.cfg.lenMax = some m → maxLen ≤ m) → q.length ≤ maxLen →
    (∃ t, steps 3 { s with
        pending := .decode maxLen o :: (srcBytes (s.cfg.delim :: frame s.cfg p) ++ rest) } = .next t
      ∧ t.decResults = s.decResults ++ [.ok 0]
      ∧ t.pending = srcBytes (frameBody s.cfg p ++ [s.cfg.delim]) ++ rest)
    ∧ (∃ t, steps (3 + (frameBody s.cfg q).length) { s with
        pending := .decode maxLen o ::
          (srcBytes (s.cfg.delim :: frameBody s.cfg q ++ frame s.cfg p) ++ rest) } = .next t
      ∧ t.decResults = s.decResults ++ [.ok q.length] ∧ memReadBytes t.out o q.length = some q
      ∧ t.pending = srcBytes (frameBody s.cfg p ++ [s.cfg.delim]) ++ rest)

/-- R251 (b), derived in the spec: if the source keeps answering and the stream has enough delimiters (three are), a
decode call ends within it. -/
def Obligations.CallEndsWithEnoughDelimiters : Prop :=
  ∀ (s : State) (maxLen o : Nat) (bs : List Byte) (rest : List Event),
    s.cfg.admissible = true → s.dec.phase = .idle → (∀ m, s.cfg.lenMax = some m → maxLen ≤ m) →
    3 ≤ bs.count s.cfg.delim →
    ∃ k t r, k ≤ bs.length
      ∧ steps (1 + k) { s with pending := .decode maxLen o :: (srcBytes bs ++ rest) } = .next t
      ∧ t.dec.phase = .idle ∧ t.decResults = s.decResults ++ [r] ∧ t.pending = srcBytes (bs.drop k) ++ rest
end

