-- ==== Sys2Proof/Laws/Decode.lean ====
section
/-! SUPPORT. The parameters' constraints as propositions, and what reading a symbol answers. -/

namespace Sys2Proof

/-- R8 as a proposition. -/
theorem Config.admissible_iff (c : Config) : c.admissible = true ↔
    c.delim ≠ c.esc ∧ c.mEnd ≠ c.mEsc ∧ c.mEnd ≠ c.delim ∧ c.mEsc ≠ c.delim ∧ c.mEnd ≠ c.esc ∧ c.mEsc ≠ c.esc := by
  simp [Config.admissible, and_assoc]

/-- A length the ports can carry, as a proposition. -/
theorem Config.lengthOk_iff (c : Config) (n : Nat) :
    c.lengthOk n = true ↔ ∀ m, c.lenMax = some m → n ≤ m := by
  cases h : c.lenMax <;> simp [Config.lengthOk, h]

/-- What is read is an operation of the context. -/
theorem decodeSymbol_inContext (c : Config) (x : Context) (b : Byte) :
    (decodeSymbol c x b).inContext x = true := by
  cases x with
  | rxCopy full => cases full <;> simp only [decodeSymbol] <;> repeat' split
                   all_goals first | rfl | contradiction
  | _ => simp only [decodeSymbol]; repeat' split
         all_goals rfl

/-- What is read is well formed. -/
theorem decodeSymbol_wellFormed (c : Config) (x : Context) (b : Byte) :
    (decodeSymbol c x b).wellFormed c = true := by
  cases x <;> simp only [decodeSymbol] <;> repeat' split
  all_goals simp_all [Instr.wellFormed]

end Sys2Proof
end

