-- ==== Sys2Proof/Laws/Memory.lean ====
section
/-! SUPPORT. The laws of the buffer spaces: a read after a store, the canonical form, and reads of several bytes. -/

namespace Sys2Proof.Machine

/-- A read at the stored address gives the stored byte. -/
theorem memRead_memWrite_same (m : Memory) (a : Nat) (v : Byte) : memRead (memWrite m a v) a = some v := by
  induction m with
  | nil => simp [memWrite, memRead]
  | cons c m ih =>
    obtain ⟨b, w⟩ := c
    unfold memWrite
    split
    · simp [memRead]
    · split
      · simp [memRead]
      · simp [memRead, *]

/-- A read at another address is not changed by a store. -/
theorem memRead_memWrite_other (m : Memory) {a x : Nat} (v : Byte) (h : x ≠ a) :
    memRead (memWrite m a v) x = memRead m x := by
  induction m with
  | nil => simp [memWrite, memRead, h]
  | cons c m ih =>
    obtain ⟨b, w⟩ := c
    unfold memWrite
    split
    · simp [memRead, h]
    · split
      · subst b; simp [memRead, h]
      · simp [memRead, ih]

/-- Every address of a canonical memory lies above a bound that lies below its first. -/
theorem Memory.wf_cons_iff (a : Nat) (v : Byte) (m : Memory) :
    Memory.wf ((a, v) :: m) = true ↔ (∀ c ∈ m.head?, a < c.1) ∧ m.wf = true := by
  cases m with
  | nil => simp [Memory.wf]
  | cons c m => obtain ⟨b, w⟩ := c; simp [Memory.wf]

/-- The first address after a store is the old first address or the stored one. -/
theorem memWrite_head (m : Memory) (a : Nat) (v : Byte) :
    ∀ c ∈ (memWrite m a v).head?, c.1 = a ∨ ∃ d ∈ m.head?, d.1 = c.1 := by
  cases m with
  | nil => simp [memWrite]
  | cons d m =>
    obtain ⟨b, w⟩ := d
    unfold memWrite
    split
    · simp
    · split <;> simp

/-- A store keeps the canonical form. -/
theorem memWrite_wf (m : Memory) (a : Nat) (v : Byte) (h : m.wf = true) : (memWrite m a v).wf = true := by
  induction m with
  | nil => simp [memWrite, Memory.wf]
  | cons c m ih =>
    obtain ⟨b, w⟩ := c
    obtain ⟨hb, hm⟩ := (Memory.wf_cons_iff b w m).1 h
    unfold memWrite
    split
    · next hlt => exact (Memory.wf_cons_iff _ _ _).2 ⟨by simpa using hlt, h⟩
    · split
      · next heq => subst heq; exact (Memory.wf_cons_iff _ _ _).2 ⟨hb, hm⟩
      · next hlt hne =>
        refine (Memory.wf_cons_iff _ _ _).2 ⟨fun x hx => ?_, ih hm⟩
        rcases memWrite_head m a v x hx with h1 | ⟨d, hd, h1⟩
        · omega
        · have := hb d hd; omega

/-- One byte more at the front. -/
theorem memReadBytes_succ (m : Memory) (a n : Nat) (p : List Byte) :
    memReadBytes m a (n + 1) = some p ↔
      ∃ b q, p = b :: q ∧ memRead m a = some b ∧ memReadBytes m (a + 1) n = some q := by
  cases h1 : memRead m a <;> cases h2 : memReadBytes m (a + 1) n <;>
    simp [memReadBytes, h1, h2, eq_comm]

/-- As many bytes are read as were asked for. -/
theorem memReadBytes_length (m : Memory) (a n : Nat) (p : List Byte) (h : memReadBytes m a n = some p) :
    p.length = n := by
  induction n generalizing a p with
  | zero => simp [memReadBytes] at h; simp [← h]
  | succ n ih =>
    obtain ⟨b, q, rfl, -, hq⟩ := (memReadBytes_succ m a n p).1 h
    simp [ih _ _ hq]

/-- Reading several bytes is reading each of them. -/
theorem memReadBytes_iff (m : Memory) (a n : Nat) (p : List Byte) :
    memReadBytes m a n = some p ↔ p.length = n ∧ ∀ i, i < n → memRead m (a + i) = p[i]? := by
  induction n generalizing a p with
  | zero => cases p <;> simp [memReadBytes]
  | succ n ih =>
    rw [memReadBytes_succ]
    constructor
    · rintro ⟨b, q, rfl, hb, hq⟩
      obtain ⟨hl, hr⟩ := (ih _ _).1 hq
      refine ⟨by simp [hl], fun i hi => ?_⟩
      cases i with
      | zero => simpa using hb
      | succ i => simpa [Nat.add_assoc, Nat.add_comm 1 i] using hr i (by omega)
    · rintro ⟨hl, hr⟩
      cases p with
      | nil => simp at hl
      | cons b q =>
        refine ⟨b, q, rfl, by simpa using hr 0 (by omega), (ih _ _).2 ⟨by simpa using hl, fun i hi => ?_⟩⟩
        simpa [Nat.add_assoc, Nat.add_comm 1 i] using hr (i + 1) (by omega)

/-- Bytes outside the range read do not matter. -/
theorem memReadBytes_congr (m m' : Memory) (a n : Nat)
    (h : ∀ x, a ≤ x → x < a + n → memRead m' x = memRead m x) : memReadBytes m' a n = memReadBytes m a n := by
  induction n generalizing a with
  | zero => rfl
  | succ n ih =>
    simp only [memReadBytes, h a (by omega) (by omega)]
    rw [ih (a + 1) (fun x h1 h2 => h x (by omega) (by omega))]

/-- A missing byte in the range makes the read fail. -/
theorem memReadBytes_none (m : Memory) (a n i : Nat) (hi : i < n) (h : memRead m (a + i) = none) :
    memReadBytes m a n = none := by
  cases hr : memReadBytes m a n with
  | none => rfl
  | some p =>
    obtain ⟨hl, hp⟩ := (memReadBytes_iff m a n p).1 hr
    have := hp i hi
    rw [h, List.getElem?_eq_getElem (by omega)] at this
    cases this

end Sys2Proof.Machine
end

