-- ==== Sys2Proof/Laws/State.lean ====
section
/-! SUPPORT. One lemma per field per update of the state, true by unfolding, so that no later proof unfolds a record. -/

namespace Sys2Proof.Machine

variable (s : State)

@[simp] theorem State.withDec_cfg (d : Dec) : (s.withDec d).cfg = s.cfg := rfl
@[simp] theorem State.withDec_dec (d : Dec) : (s.withDec d).dec = d := rfl
@[simp] theorem State.withDec_enc (d : Dec) : (s.withDec d).enc = s.enc := rfl
@[simp] theorem State.withDec_out (d : Dec) : (s.withDec d).out = s.out := rfl
@[simp] theorem State.withDec_pay (d : Dec) : (s.withDec d).pay = s.pay := rfl
@[simp] theorem State.withDec_tx (d : Dec) : (s.withDec d).tx = s.tx := rfl
@[simp] theorem State.withDec_decResults (d : Dec) : (s.withDec d).decResults = s.decResults := rfl
@[simp] theorem State.withDec_encResults (d : Dec) : (s.withDec d).encResults = s.encResults := rfl
@[simp] theorem State.withDec_pending (d : Dec) : (s.withDec d).pending = s.pending := rfl

@[simp] theorem State.withEnc_cfg (e : Enc) : (s.withEnc e).cfg = s.cfg := rfl
@[simp] theorem State.withEnc_dec (e : Enc) : (s.withEnc e).dec = s.dec := rfl
@[simp] theorem State.withEnc_enc (e : Enc) : (s.withEnc e).enc = e := rfl
@[simp] theorem State.withEnc_out (e : Enc) : (s.withEnc e).out = s.out := rfl
@[simp] theorem State.withEnc_pay (e : Enc) : (s.withEnc e).pay = s.pay := rfl
@[simp] theorem State.withEnc_tx (e : Enc) : (s.withEnc e).tx = s.tx := rfl
@[simp] theorem State.withEnc_decResults (e : Enc) : (s.withEnc e).decResults = s.decResults := rfl
@[simp] theorem State.withEnc_encResults (e : Enc) : (s.withEnc e).encResults = s.encResults := rfl
@[simp] theorem State.withEnc_pending (e : Enc) : (s.withEnc e).pending = s.pending := rfl

@[simp] theorem State.withOut_cfg (m : Memory) : (s.withOut m).cfg = s.cfg := rfl
@[simp] theorem State.withOut_dec (m : Memory) : (s.withOut m).dec = s.dec := rfl
@[simp] theorem State.withOut_enc (m : Memory) : (s.withOut m).enc = s.enc := rfl
@[simp] theorem State.withOut_out (m : Memory) : (s.withOut m).out = m := rfl
@[simp] theorem State.withOut_pay (m : Memory) : (s.withOut m).pay = s.pay := rfl
@[simp] theorem State.withOut_tx (m : Memory) : (s.withOut m).tx = s.tx := rfl
@[simp] theorem State.withOut_decResults (m : Memory) : (s.withOut m).decResults = s.decResults := rfl
@[simp] theorem State.withOut_encResults (m : Memory) : (s.withOut m).encResults = s.encResults := rfl
@[simp] theorem State.withOut_pending (m : Memory) : (s.withOut m).pending = s.pending := rfl

@[simp] theorem State.withPay_cfg (m : Memory) : (s.withPay m).cfg = s.cfg := rfl
@[simp] theorem State.withPay_dec (m : Memory) : (s.withPay m).dec = s.dec := rfl
@[simp] theorem State.withPay_enc (m : Memory) : (s.withPay m).enc = s.enc := rfl
@[simp] theorem State.withPay_out (m : Memory) : (s.withPay m).out = s.out := rfl
@[simp] theorem State.withPay_pay (m : Memory) : (s.withPay m).pay = m := rfl
@[simp] theorem State.withPay_tx (m : Memory) : (s.withPay m).tx = s.tx := rfl
@[simp] theorem State.withPay_decResults (m : Memory) : (s.withPay m).decResults = s.decResults := rfl
@[simp] theorem State.withPay_encResults (m : Memory) : (s.withPay m).encResults = s.encResults := rfl
@[simp] theorem State.withPay_pending (m : Memory) : (s.withPay m).pending = s.pending := rfl

@[simp] theorem State.sendTx_cfg (bs : List Byte) : (s.sendTx bs).cfg = s.cfg := rfl
@[simp] theorem State.sendTx_dec (bs : List Byte) : (s.sendTx bs).dec = s.dec := rfl
@[simp] theorem State.sendTx_enc (bs : List Byte) : (s.sendTx bs).enc = s.enc := rfl
@[simp] theorem State.sendTx_out (bs : List Byte) : (s.sendTx bs).out = s.out := rfl
@[simp] theorem State.sendTx_pay (bs : List Byte) : (s.sendTx bs).pay = s.pay := rfl
@[simp] theorem State.sendTx_tx (bs : List Byte) : (s.sendTx bs).tx = s.tx ++ bs := rfl
@[simp] theorem State.sendTx_decResults (bs : List Byte) : (s.sendTx bs).decResults = s.decResults := rfl
@[simp] theorem State.sendTx_encResults (bs : List Byte) : (s.sendTx bs).encResults = s.encResults := rfl
@[simp] theorem State.sendTx_pending (bs : List Byte) : (s.sendTx bs).pending = s.pending := rfl

@[simp] theorem State.deliverDec_cfg (r : DecResult) : (s.deliverDec r).cfg = s.cfg := rfl
@[simp] theorem State.deliverDec_dec (r : DecResult) : (s.deliverDec r).dec = s.dec := rfl
@[simp] theorem State.deliverDec_enc (r : DecResult) : (s.deliverDec r).enc = s.enc := rfl
@[simp] theorem State.deliverDec_out (r : DecResult) : (s.deliverDec r).out = s.out := rfl
@[simp] theorem State.deliverDec_pay (r : DecResult) : (s.deliverDec r).pay = s.pay := rfl
@[simp] theorem State.deliverDec_tx (r : DecResult) : (s.deliverDec r).tx = s.tx := rfl
@[simp] theorem State.deliverDec_decResults (r : DecResult) : (s.deliverDec r).decResults = s.decResults ++ [r] := rfl
@[simp] theorem State.deliverDec_encResults (r : DecResult) : (s.deliverDec r).encResults = s.encResults := rfl
@[simp] theorem State.deliverDec_pending (r : DecResult) : (s.deliverDec r).pending = s.pending := rfl

@[simp] theorem State.deliverEnc_cfg (r : EncResult) : (s.deliverEnc r).cfg = s.cfg := rfl
@[simp] theorem State.deliverEnc_dec (r : EncResult) : (s.deliverEnc r).dec = s.dec := rfl
@[simp] theorem State.deliverEnc_enc (r : EncResult) : (s.deliverEnc r).enc = s.enc := rfl
@[simp] theorem State.deliverEnc_out (r : EncResult) : (s.deliverEnc r).out = s.out := rfl
@[simp] theorem State.deliverEnc_pay (r : EncResult) : (s.deliverEnc r).pay = s.pay := rfl
@[simp] theorem State.deliverEnc_tx (r : EncResult) : (s.deliverEnc r).tx = s.tx := rfl
@[simp] theorem State.deliverEnc_decResults (r : EncResult) : (s.deliverEnc r).decResults = s.decResults := rfl
@[simp] theorem State.deliverEnc_encResults (r : EncResult) : (s.deliverEnc r).encResults = s.encResults ++ [r] := rfl
@[simp] theorem State.deliverEnc_pending (r : EncResult) : (s.deliverEnc r).pending = s.pending := rfl

@[simp] theorem State.withPending_cfg (es : List Event) : (s.withPending es).cfg = s.cfg := rfl
@[simp] theorem State.withPending_dec (es : List Event) : (s.withPending es).dec = s.dec := rfl
@[simp] theorem State.withPending_enc (es : List Event) : (s.withPending es).enc = s.enc := rfl
@[simp] theorem State.withPending_out (es : List Event) : (s.withPending es).out = s.out := rfl
@[simp] theorem State.withPending_pay (es : List Event) : (s.withPending es).pay = s.pay := rfl
@[simp] theorem State.withPending_tx (es : List Event) : (s.withPending es).tx = s.tx := rfl
@[simp] theorem State.withPending_decResults (es : List Event) : (s.withPending es).decResults = s.decResults := rfl
@[simp] theorem State.withPending_encResults (es : List Event) : (s.withPending es).encResults = s.encResults := rfl
@[simp] theorem State.withPending_pending (es : List Event) : (s.withPending es).pending = es := rfl

/-! The end of a call and the error conditions, field by field. -/

@[simp] theorem finishDec_cfg (r : DecResult) : (finishDec r s).cfg = s.cfg := rfl
@[simp] theorem finishDec_dec (r : DecResult) : (finishDec r s).dec = { s.dec with phase := .idle } := rfl
@[simp] theorem finishDec_enc (r : DecResult) : (finishDec r s).enc = s.enc := rfl
@[simp] theorem finishDec_out (r : DecResult) : (finishDec r s).out = s.out := rfl
@[simp] theorem finishDec_pay (r : DecResult) : (finishDec r s).pay = s.pay := rfl
@[simp] theorem finishDec_tx (r : DecResult) : (finishDec r s).tx = s.tx := rfl
@[simp] theorem finishDec_decResults (r : DecResult) : (finishDec r s).decResults = s.decResults ++ [r] := rfl
@[simp] theorem finishDec_encResults (r : DecResult) : (finishDec r s).encResults = s.encResults := rfl
@[simp] theorem finishDec_pending (r : DecResult) : (finishDec r s).pending = s.pending := rfl

@[simp] theorem finishEnc_cfg (r : EncResult) : (finishEnc r s).cfg = s.cfg := rfl
@[simp] theorem finishEnc_dec (r : EncResult) : (finishEnc r s).dec = s.dec := rfl
@[simp] theorem finishEnc_enc (r : EncResult) : (finishEnc r s).enc = { s.enc with phase := .idle, write := none } := rfl
@[simp] theorem finishEnc_out (r : EncResult) : (finishEnc r s).out = s.out := rfl
@[simp] theorem finishEnc_pay (r : EncResult) : (finishEnc r s).pay = s.pay := rfl
@[simp] theorem finishEnc_tx (r : EncResult) : (finishEnc r s).tx = s.tx := rfl
@[simp] theorem finishEnc_decResults (r : EncResult) : (finishEnc r s).decResults = s.decResults := rfl
@[simp] theorem finishEnc_encResults (r : EncResult) : (finishEnc r s).encResults = s.encResults ++ [r] := rfl
@[simp] theorem finishEnc_pending (r : EncResult) : (finishEnc r s).pending = s.pending := rfl

@[simp] theorem raiseDec_invalidEscape_cfg : (raiseDec .invalidEscape s).cfg = s.cfg := rfl
@[simp] theorem raiseDec_invalidEscape_dec : (raiseDec .invalidEscape s).dec = { s.dec with status := .invalidEscape, len := 0, phase := .resync } := rfl
@[simp] theorem raiseDec_invalidEscape_enc : (raiseDec .invalidEscape s).enc = s.enc := rfl
@[simp] theorem raiseDec_invalidEscape_out : (raiseDec .invalidEscape s).out = s.out := rfl
@[simp] theorem raiseDec_invalidEscape_pay : (raiseDec .invalidEscape s).pay = s.pay := rfl
@[simp] theorem raiseDec_invalidEscape_tx : (raiseDec .invalidEscape s).tx = s.tx := rfl
@[simp] theorem raiseDec_invalidEscape_decResults : (raiseDec .invalidEscape s).decResults = s.decResults := rfl
@[simp] theorem raiseDec_invalidEscape_encResults : (raiseDec .invalidEscape s).encResults = s.encResults := rfl
@[simp] theorem raiseDec_invalidEscape_pending : (raiseDec .invalidEscape s).pending = s.pending := rfl

@[simp] theorem raiseDec_frameTooLarge_cfg : (raiseDec .frameTooLarge s).cfg = s.cfg := rfl
@[simp] theorem raiseDec_frameTooLarge_dec : (raiseDec .frameTooLarge s).dec = { s.dec with status := .frameTooLarge, len := 0, phase := .resync } := rfl
@[simp] theorem raiseDec_frameTooLarge_enc : (raiseDec .frameTooLarge s).enc = s.enc := rfl
@[simp] theorem raiseDec_frameTooLarge_out : (raiseDec .frameTooLarge s).out = s.out := rfl
@[simp] theorem raiseDec_frameTooLarge_pay : (raiseDec .frameTooLarge s).pay = s.pay := rfl
@[simp] theorem raiseDec_frameTooLarge_tx : (raiseDec .frameTooLarge s).tx = s.tx := rfl
@[simp] theorem raiseDec_frameTooLarge_decResults : (raiseDec .frameTooLarge s).decResults = s.decResults := rfl
@[simp] theorem raiseDec_frameTooLarge_encResults : (raiseDec .frameTooLarge s).encResults = s.encResults := rfl
@[simp] theorem raiseDec_frameTooLarge_pending : (raiseDec .frameTooLarge s).pending = s.pending := rfl

@[simp] theorem raiseDec_transportFailure_cfg : (raiseDec .transportFailure s).cfg = s.cfg := rfl
@[simp] theorem raiseDec_transportFailure_dec : (raiseDec .transportFailure s).dec = { s.dec with len := 0, phase := .idle } := rfl
@[simp] theorem raiseDec_transportFailure_enc : (raiseDec .transportFailure s).enc = s.enc := rfl
@[simp] theorem raiseDec_transportFailure_out : (raiseDec .transportFailure s).out = s.out := rfl
@[simp] theorem raiseDec_transportFailure_pay : (raiseDec .transportFailure s).pay = s.pay := rfl
@[simp] theorem raiseDec_transportFailure_tx : (raiseDec .transportFailure s).tx = s.tx := rfl
@[simp] theorem raiseDec_transportFailure_decResults : (raiseDec .transportFailure s).decResults = s.decResults ++ [.err .transportFailure] := rfl
@[simp] theorem raiseDec_transportFailure_encResults : (raiseDec .transportFailure s).encResults = s.encResults := rfl
@[simp] theorem raiseDec_transportFailure_pending : (raiseDec .transportFailure s).pending = s.pending := rfl

@[simp] theorem emitBytes_cfg (bs : List Byte) (idx : Nat) (sub : ESub) : (emitBytes bs idx sub s).cfg = s.cfg := rfl
@[simp] theorem emitBytes_dec (bs : List Byte) (idx : Nat) (sub : ESub) : (emitBytes bs idx sub s).dec = s.dec := rfl
@[simp] theorem emitBytes_enc (bs : List Byte) (idx : Nat) (sub : ESub) : (emitBytes bs idx sub s).enc = { s.enc with emitted := s.enc.emitted ++ bs, idx := idx, sub := sub } := rfl
@[simp] theorem emitBytes_out (bs : List Byte) (idx : Nat) (sub : ESub) : (emitBytes bs idx sub s).out = s.out := rfl
@[simp] theorem emitBytes_pay (bs : List Byte) (idx : Nat) (sub : ESub) : (emitBytes bs idx sub s).pay = s.pay := rfl
@[simp] theorem emitBytes_tx (bs : List Byte) (idx : Nat) (sub : ESub) : (emitBytes bs idx sub s).tx = s.tx := rfl
@[simp] theorem emitBytes_decResults (bs : List Byte) (idx : Nat) (sub : ESub) : (emitBytes bs idx sub s).decResults = s.decResults := rfl
@[simp] theorem emitBytes_encResults (bs : List Byte) (idx : Nat) (sub : ESub) : (emitBytes bs idx sub s).encResults = s.encResults := rfl
@[simp] theorem emitBytes_pending (bs : List Byte) (idx : Nat) (sub : ESub) : (emitBytes bs idx sub s).pending = s.pending := rfl

end Sys2Proof.Machine
end

