-- ==== Sys2Proof/Laws/Ops.lean ====
section
/-! SUPPORT. What each shared operation and each meaning can do: if it answers a next state, then this. -/

namespace Sys2Proof.Machine

variable {s t : State}

/-- The append: it answers only below the capacity, and then stores one byte and counts it. -/
theorem appendOut_next {v : Byte} {ph : DPhase} (h : appendOut v ph s = .next t) :
    s.dec.len < s.dec.cap ∧
      t = (s.withOut (memWrite s.out (s.dec.out + s.dec.len) v)).withDec
            { s.dec with len := s.dec.len + 1, phase := ph } := by
  unfold appendOut at h
  split at h
  · next hl => cases h; exact ⟨hl, rfl⟩
  · cases h

theorem execSeekEnd_next (h : execSeekEnd s = .next t) :
    s.dec.phase = .seek ∧ t = s.withDec { s.dec with phase := .copy } := by
  unfold execSeekEnd at h; split at h
  · next hp => cases h; exact ⟨hp, rfl⟩
  · cases h

theorem execSeekSkip_next (b : Byte) (h : execSeekSkip b s = .next t) : s.dec.phase = .seek ∧ t = s := by
  unfold execSeekSkip at h; split at h
  · next hp => cases h; exact ⟨hp, rfl⟩
  · cases h

theorem execCopyEnd_next (h : execCopyEnd s = .next t) :
    s.dec.phase = .copy ∧ t = finishDec (.ok s.dec.len) s := by
  unfold execCopyEnd at h; split at h
  · next hp => cases h; exact ⟨hp, rfl⟩
  · cases h

theorem execCopyOvf_next (b : Byte) (h : execCopyOvf b s = .next t) :
    s.dec.phase = .copy ∧ s.dec.len = s.dec.cap ∧ t = raiseDec .frameTooLarge s := by
  unfold execCopyOvf at h; split at h
  · next hp => cases h; exact ⟨hp.1, hp.2, rfl⟩
  · cases h

theorem execCopyEsc_next (h : execCopyEsc s = .next t) :
    s.dec.phase = .copy ∧ s.dec.len < s.dec.cap ∧ t = s.withDec { s.dec with phase := .escaped } := by
  unfold execCopyEsc at h; split at h
  · next hp => cases h; exact ⟨hp.1, hp.2, rfl⟩
  · cases h

theorem execCopyLit_next {b : Byte} (h : execCopyLit b s = .next t) :
    s.dec.phase = .copy ∧ s.dec.len < s.dec.cap ∧
      t = (s.withOut (memWrite s.out (s.dec.out + s.dec.len) b)).withDec
            { s.dec with len := s.dec.len + 1, phase := .copy } := by
  unfold execCopyLit at h; split at h
  · next hp => exact ⟨hp.1, appendOut_next h⟩
  · cases h

theorem execEscapedMend_next (h : execEscapedMend s = .next t) :
    s.dec.phase = .escaped ∧ s.dec.len < s.dec.cap ∧
      t = (s.withOut (memWrite s.out (s.dec.out + s.dec.len) s.cfg.delim)).withDec
            { s.dec with len := s.dec.len + 1, phase := .copy } := by
  unfold execEscapedMend at h; split at h
  · next hp => exact ⟨hp, appendOut_next h⟩
  · cases h

theorem execEscapedMesc_next (h : execEscapedMesc s = .next t) :
    s.dec.phase = .escaped ∧ s.dec.len < s.dec.cap ∧
      t = (s.withOut (memWrite s.out (s.dec.out + s.dec.len) s.cfg.esc)).withDec
            { s.dec with len := s.dec.len + 1, phase := .copy } := by
  unfold execEscapedMesc at h; split at h
  · next hp => exact ⟨hp, appendOut_next h⟩
  · cases h

theorem execEscapedBad_next (b : Byte) (h : execEscapedBad b s = .next t) :
    s.dec.phase = .escaped ∧ t = raiseDec .invalidEscape s := by
  unfold execEscapedBad at h; split at h
  · next hp => cases h; exact ⟨hp, rfl⟩
  · cases h

theorem execResyncEnd_next (h : execResyncEnd s = .next t) :
    s.dec.phase = .resync ∧ ∃ e, pendingError s.dec.status = some e ∧ t = finishDec (.err e) s := by
  unfold execResyncEnd at h; split at h
  · next hp =>
    split at h
    · next e he => cases h; exact ⟨hp, e, he, rfl⟩
    · cases h
  · cases h

theorem execResyncSkip_next (b : Byte) (h : execResyncSkip b s = .next t) : s.dec.phase = .resync ∧ t = s := by
  unfold execResyncSkip at h; split at h
  · next hp => cases h; exact ⟨hp, rfl⟩
  · cases h

theorem execSrcFail_next (h : execSrcFail s = .next t) :
    s.dec.phase ≠ .idle ∧ t = raiseDec .transportFailure s := by
  unfold execSrcFail at h; split at h
  · cases h
  · next hp => cases h; exact ⟨hp, rfl⟩

/-- The body of an encode call, as a proposition. -/
theorem inBody_iff (e : Enc) : inBody e = true ↔ e.phase = .writing ∧ e.sub = .eBody ∧ e.idx < e.n := by
  simp [inBody, and_assoc]

theorem execTxOpen_next (h : execTxOpen s = .next t) :
    s.enc.phase = .writing ∧ s.enc.sub = .eOpen ∧ t = emitBytes [s.cfg.delim] s.enc.idx .eBody s := by
  unfold execTxOpen at h; split at h
  · next hp => cases h; exact ⟨hp.1, hp.2, rfl⟩
  · cases h

theorem execTxEscd_next (h : execTxEscd s = .next t) :
    inBody s.enc = true ∧ t = emitBytes [s.cfg.esc, s.cfg.mEnd] (s.enc.idx + 1) .eBody s := by
  unfold execTxEscd at h; split at h
  · next hp => cases h; exact ⟨hp, rfl⟩
  · cases h

theorem execTxEsce_next (h : execTxEsce s = .next t) :
    inBody s.enc = true ∧ t = emitBytes [s.cfg.esc, s.cfg.mEsc] (s.enc.idx + 1) .eBody s := by
  unfold execTxEsce at h; split at h
  · next hp => cases h; exact ⟨hp, rfl⟩
  · cases h

theorem execTxLit_next {b : Byte} (h : execTxLit b s = .next t) :
    inBody s.enc = true ∧ t = emitBytes [b] (s.enc.idx + 1) .eBody s := by
  unfold execTxLit at h; split at h
  · next hp => cases h; exact ⟨hp, rfl⟩
  · cases h

theorem execTxClose_next (h : execTxClose s = .next t) :
    s.enc.phase = .writing ∧ s.enc.sub = .eBody ∧ s.enc.idx = s.enc.n
      ∧ t = emitBytes [s.cfg.delim] s.enc.idx .eDone s := by
  unfold execTxClose at h; split at h
  · next hp => cases h; exact ⟨hp.1, hp.2.1, hp.2.2, rfl⟩
  · cases h

theorem execEncode_next {pay n : Nat} (h : execEncode pay n s = .next t) :
    s.enc.phase = .idle ∧ s.cfg.lengthOk n = true ∧ ∃ p, memReadBytes s.pay pay n = some p ∧
      t = s.withEnc { phase := .writing, n := n, idx := 0, pay := pay, write := some (frame s.cfg p),
                      sub := .eOpen, emitted := [] } := by
  unfold execEncode at h
  split at h
  · next hp =>
    split at h
    · next hl =>
      split at h
      · next p hr => cases h; exact ⟨hp, hl, p, hr, rfl⟩
      · cases h
    · cases h
  · cases h

theorem execDecode_next {maxLen out : Nat} (h : execDecode maxLen out s = .next t) :
    s.dec.phase = .idle ∧ s.cfg.lengthOk maxLen = true ∧
      t = s.withDec { phase := .seek, len := 0, cap := maxLen, status := .none, out := out } := by
  unfold execDecode at h
  split at h
  · next hp =>
    split at h
    · next hl => cases h; exact ⟨hp, hl, rfl⟩
    · cases h
  · cases h

theorem sinkOk_next (h : sinkOk s = .next t) :
    ∃ f, s.enc.write = some f ∧ t = finishEnc .ok (s.sendTx f) := by
  unfold sinkOk at h; split at h
  · next f hf => cases h; exact ⟨f, hf, rfl⟩
  · cases h

theorem sinkFail_next {k : Nat} (h : sinkFail k s = .next t) :
    ∃ f, s.enc.write = some f ∧ t = finishEnc .transportFailure (s.sendTx (f.take k)) := by
  unfold sinkFail at h; split at h
  · next f hf => cases h; exact ⟨f, hf, rfl⟩
  · cases h

/-- A reset touches the stream only by the part of a write that is on the wire, and nothing else but the two units. -/
theorem abandonWrite_cases (k : Nat) (s : State) :
    (s.enc.write = none ∧ abandonWrite k s = s) ∨
      ∃ f, s.enc.write = some f ∧ abandonWrite k s = s.sendTx (f.take k) := by
  unfold abandonWrite
  split
  · next f hf => exact .inr ⟨f, hf, rfl⟩
  · next hf => exact .inl ⟨hf, rfl⟩

theorem resetEvent_next {k : Nat} (h : resetEvent k s = .next t) :
    t = ((abandonWrite k s).withDec Dec.reset).withEnc Enc.reset := by
  unfold resetEvent at h; cases h; rfl

/-- The addresses a decode call owns. -/
theorem ownedByDec_iff (d : Dec) (a : Nat) :
    ownedByDec d a = true ↔ d.phase ≠ .idle ∧ d.out ≤ a ∧ a < d.out + d.cap := by
  simp [ownedByDec, and_assoc]

/-- The addresses an encode call owns. -/
theorem ownedByEnc_iff (e : Enc) (a : Nat) :
    ownedByEnc e a = true ↔ e.phase = .writing ∧ e.pay ≤ a ∧ a < e.pay + e.n := by
  simp [ownedByEnc, and_assoc]

/-- What an access of the caller can do. -/
theorem callerAccess_next {a : CallerAccess} (h : callerAccess a s = .next t) :
    t = s ∨ (∃ x v, ownedByDec s.dec x = false ∧ t = s.withOut (memWrite s.out x v))
      ∨ (∃ x v, ownedByEnc s.enc x = false ∧ t = s.withPay (memWrite s.pay x v)) := by
  cases a with
  | readOut x => simp only [callerAccess] at h; split at h <;> cases h; exact .inl rfl
  | writeOut x v =>
    simp only [callerAccess] at h
    split at h
    · cases h
    · next ho => cases h; exact .inr (.inl ⟨x, v, by simpa using ho, rfl⟩)
  | readPay x => simp only [callerAccess] at h; cases h; exact .inl rfl
  | writePay x v =>
    simp only [callerAccess] at h
    split at h
    · cases h
    · next ho => cases h; exact .inr (.inr ⟨x, v, by simpa using ho, rfl⟩)

end Sys2Proof.Machine
end

