-- ==== Sys2Proof/Laws/PerInstr.lean ====
section
/-! SUPPORT. The family `OneByteSymbol`, one lemma per constructor: an operation that some context holds has a symbol of
exactly one byte, and one that no symbol selects has none (30_encoding.md R81, R93, R98). -/

namespace Sys2Proof.Laws.OneByteSymbol

/-- The family's statement about one operation. -/
def Statement (i : Instr) : Prop :=
  ∀ c : Config, ((encode c i).length = 1 ↔ ∃ x, i.inContext x = true) ∧ (encode c i).length ≤ 1

theorem seekEnd : Statement .seekEnd := fun _ => ⟨iff_of_true rfl ⟨.rxSeek, rfl⟩, le_rfl⟩
theorem seekSkip (b : Byte) : Statement (.seekSkip b) := fun _ => ⟨iff_of_true rfl ⟨.rxSeek, rfl⟩, le_rfl⟩
theorem copyEnd : Statement .copyEnd := fun _ => ⟨iff_of_true rfl ⟨.rxCopy true, rfl⟩, le_rfl⟩
theorem copyOvf (b : Byte) : Statement (.copyOvf b) := fun _ => ⟨iff_of_true rfl ⟨.rxCopy true, rfl⟩, le_rfl⟩
theorem copyEsc : Statement .copyEsc := fun _ => ⟨iff_of_true rfl ⟨.rxCopy false, rfl⟩, le_rfl⟩
theorem copyLit (b : Byte) : Statement (.copyLit b) := fun _ => ⟨iff_of_true rfl ⟨.rxCopy false, rfl⟩, le_rfl⟩
theorem escapedMend : Statement .escapedMend := fun _ => ⟨iff_of_true rfl ⟨.rxEscaped, rfl⟩, le_rfl⟩
theorem escapedMesc : Statement .escapedMesc := fun _ => ⟨iff_of_true rfl ⟨.rxEscaped, rfl⟩, le_rfl⟩
theorem escapedBad (b : Byte) : Statement (.escapedBad b) := fun _ => ⟨iff_of_true rfl ⟨.rxEscaped, rfl⟩, le_rfl⟩
theorem resyncEnd : Statement .resyncEnd := fun _ => ⟨iff_of_true rfl ⟨.rxResync, rfl⟩, le_rfl⟩
theorem resyncSkip (b : Byte) : Statement (.resyncSkip b) := fun _ => ⟨iff_of_true rfl ⟨.rxResync, rfl⟩, le_rfl⟩
theorem srcFail : Statement .srcFail := fun _ => by simp [encode, Instr.inContext]
theorem txOpen : Statement .txOpen := fun _ => by simp [encode, Instr.inContext]
theorem txEscd : Statement .txEscd := fun _ => ⟨iff_of_true rfl ⟨.tx, rfl⟩, le_rfl⟩
theorem txEsce : Statement .txEsce := fun _ => ⟨iff_of_true rfl ⟨.tx, rfl⟩, le_rfl⟩
theorem txLit (b : Byte) : Statement (.txLit b) := fun _ => ⟨iff_of_true rfl ⟨.tx, rfl⟩, le_rfl⟩
theorem txClose : Statement .txClose := fun _ => by simp [encode, Instr.inContext]
theorem encode (pay n : Nat) : Statement (.encode pay n) := fun _ => by simp [Sys2Proof.encode, Instr.inContext]
theorem decode (maxLen out : Nat) : Statement (.decode maxLen out) := fun _ => by
  simp [Sys2Proof.encode, Instr.inContext]

end Sys2Proof.Laws.OneByteSymbol
end

