-- ==== Sys2Proof/Laws/Step.lean ====
section
/-! SUPPORT. What a step can do, and how steps compose. -/

namespace Sys2Proof.Machine

variable {s t : State}

/-- A step that answers a next state ran under admissible parameters, and either nothing was pending or it performed what
the next event selects. -/
theorem step_next (h : step s = .next t) :
    s.cfg.admissible = true ∧ ((s.pending = [] ∧ t = s) ∨
      ∃ e rest, s.pending = e :: rest ∧
        perform (selectEvent e (s.withPending rest)) (s.withPending rest) = .next t) := by
  unfold step at h
  split at h
  · next ha =>
    refine ⟨ha, ?_⟩
    split at h
    · next hp => cases h; exact .inl ⟨hp, rfl⟩
    · next e rest hp => exact .inr ⟨e, rest, hp, h⟩
  · cases h

/-- A step on an event. -/
theorem step_event {e : Event} {rest : List Event} (ha : s.cfg.admissible = true) (hp : s.pending = e :: rest) :
    step s = perform (selectEvent e (s.withPending rest)) (s.withPending rest) := by
  simp [step, ha, hp]

/-- A step without an event. -/
theorem step_quiet (ha : s.cfg.admissible = true) (hp : s.pending = []) : step s = .next s := by
  simp [step, ha, hp]

/-- What an answer of the source selects in a call. -/
theorem selectAnswer_run {a : SrcAnswer} {i : Instr} (h : selectAnswer a s = .run i) :
    (a = .fail ∧ i = .srcFail ∧ s.dec.phase ≠ .idle)
      ∨ ∃ b x, a = .byte b ∧ rxContext s.dec = some x ∧ i = decodeSymbol s.cfg x b := by
  unfold selectAnswer at h
  split at h
  · cases h
  · next x b hx => cases h; exact .inr ⟨b, x, rfl, hx, rfl⟩
  · next x hx =>
    cases h
    refine .inl ⟨rfl, rfl, fun hi => ?_⟩
    simp [rxContext, hi] at hx

/-- What an emission step selects. -/
theorem selectEmission_run {i : Instr} (h : selectEmission s = .run i) :
    (s.enc.phase = .writing ∧ s.enc.sub = .eOpen ∧ i = .txOpen)
      ∨ (s.enc.phase = .writing ∧ s.enc.sub = .eBody ∧ s.enc.idx = s.enc.n ∧ i = .txClose)
      ∨ (s.enc.phase = .writing ∧ s.enc.sub = .eBody ∧ s.enc.idx ≠ s.enc.n ∧
          ∃ b, memRead s.pay (s.enc.pay + s.enc.idx) = some b ∧ i = decodeSymbol s.cfg .tx b) := by
  unfold selectEmission at h
  split at h
  · cases h
  · next h1 h2 => cases h; exact .inl ⟨h1, h2, rfl⟩
  · next h1 h2 =>
    split at h
    · next h3 => cases h; exact .inr (.inl ⟨h1, h2, h3, rfl⟩)
    · next h3 =>
      split at h
      · next b hb => cases h; exact .inr (.inr ⟨h1, h2, h3, b, hb, rfl⟩)
      · cases h
  · cases h

/-- Everything a step can do, effect by effect. `u` is the state with the event taken off. -/
inductive StepCase (s : State) : State → Prop
  | quiet (hp : s.pending = []) : StepCase s s
  | decode (rest : List Event) (m o : Nat) (hp : s.pending = .decode m o :: rest) (hph : s.dec.phase = .idle)
      (hl : s.cfg.lengthOk m = true) :
      StepCase s ((s.withPending rest).withDec { phase := .seek, len := 0, cap := m, status := .none, out := o })
  | srcFail (rest : List Event) (hp : s.pending = .src .fail :: rest) (hph : s.dec.phase ≠ .idle) :
      StepCase s (raiseDec .transportFailure (s.withPending rest))
  | seekEnd (rest : List Event) (hp : s.pending = .src (.byte s.cfg.delim) :: rest) (hph : s.dec.phase = .seek) :
      StepCase s ((s.withPending rest).withDec { s.dec with phase := .copy })
  | seekSkip (rest : List Event) (b : Byte) (hp : s.pending = .src (.byte b) :: rest) (hb : b ≠ s.cfg.delim)
      (hph : s.dec.phase = .seek) : StepCase s (s.withPending rest)
  | copyEnd (rest : List Event) (hp : s.pending = .src (.byte s.cfg.delim) :: rest) (hph : s.dec.phase = .copy) :
      StepCase s (finishDec (.ok s.dec.len) (s.withPending rest))
  | copyOvf (rest : List Event) (b : Byte) (hp : s.pending = .src (.byte b) :: rest) (hb : b ≠ s.cfg.delim)
      (hph : s.dec.phase = .copy) (hl : s.dec.len = s.dec.cap) :
      StepCase s (raiseDec .frameTooLarge (s.withPending rest))
  | copyEsc (rest : List Event) (hp : s.pending = .src (.byte s.cfg.esc) :: rest) (hph : s.dec.phase = .copy)
      (hl : s.dec.len < s.dec.cap) : StepCase s ((s.withPending rest).withDec { s.dec with phase := .escaped })
  | copyLit (rest : List Event) (b : Byte) (hp : s.pending = .src (.byte b) :: rest) (hb : b ≠ s.cfg.delim)
      (he : b ≠ s.cfg.esc) (hph : s.dec.phase = .copy) (hl : s.dec.len < s.dec.cap) :
      StepCase s (((s.withPending rest).withOut (memWrite s.out (s.dec.out + s.dec.len) b)).withDec
        { s.dec with len := s.dec.len + 1, phase := .copy })
  | escapedMend (rest : List Event) (hp : s.pending = .src (.byte s.cfg.mEnd) :: rest) (hph : s.dec.phase = .escaped)
      (hl : s.dec.len < s.dec.cap) :
      StepCase s (((s.withPending rest).withOut (memWrite s.out (s.dec.out + s.dec.len) s.cfg.delim)).withDec
        { s.dec with len := s.dec.len + 1, phase := .copy })
  | escapedMesc (rest : List Event) (hp : s.pending = .src (.byte s.cfg.mEsc) :: rest) (hph : s.dec.phase = .escaped)
      (hl : s.dec.len < s.dec.cap) :
      StepCase s (((s.withPending rest).withOut (memWrite s.out (s.dec.out + s.dec.len) s.cfg.esc)).withDec
        { s.dec with len := s.dec.len + 1, phase := .copy })
  | escapedBad (rest : List Event) (b : Byte) (hp : s.pending = .src (.byte b) :: rest) (hd : b ≠ s.cfg.mEnd)
      (he : b ≠ s.cfg.mEsc) (hph : s.dec.phase = .escaped) :
      StepCase s (raiseDec .invalidEscape (s.withPending rest))
  | resyncEnd (rest : List Event) (e : ErrorCode) (hp : s.pending = .src (.byte s.cfg.delim) :: rest)
      (hph : s.dec.phase = .resync) (he : pendingError s.dec.status = some e) :
      StepCase s (finishDec (.err e) (s.withPending rest))
  | resyncSkip (rest : List Event) (b : Byte) (hp : s.pending = .src (.byte b) :: rest) (hb : b ≠ s.cfg.delim)
      (hph : s.dec.phase = .resync) : StepCase s (s.withPending rest)
  | encode (rest : List Event) (a n : Nat) (p : List Byte) (hp : s.pending = .encode a n :: rest)
      (hph : s.enc.phase = .idle) (hl : s.cfg.lengthOk n = true) (hr : memReadBytes s.pay a n = some p) :
      StepCase s ((s.withPending rest).withEnc
        { phase := .writing, n := n, idx := 0, pay := a, write := some (frame s.cfg p), sub := .eOpen, emitted := [] })
  | txOpen (rest : List Event) (hp : s.pending = .emit :: rest) (hph : s.enc.phase = .writing)
      (hs : s.enc.sub = .eOpen) : StepCase s (emitBytes [s.cfg.delim] s.enc.idx .eBody (s.withPending rest))
  | txByte (rest : List Event) (b : Byte) (hp : s.pending = .emit :: rest) (hph : s.enc.phase = .writing)
      (hs : s.enc.sub = .eBody) (hi : s.enc.idx < s.enc.n) (hr : memRead s.pay (s.enc.pay + s.enc.idx) = some b) :
      StepCase s (emitBytes (escByte s.cfg b) (s.enc.idx + 1) .eBody (s.withPending rest))
  | txClose (rest : List Event) (hp : s.pending = .emit :: rest) (hph : s.enc.phase = .writing)
      (hs : s.enc.sub = .eBody) (hi : s.enc.idx = s.enc.n) :
      StepCase s (emitBytes [s.cfg.delim] s.enc.idx .eDone (s.withPending rest))
  | sinkOk (rest : List Event) (f : List Byte) (hp : s.pending = .sink .ok :: rest) (hw : s.enc.write = some f) :
      StepCase s (finishEnc .ok ((s.withPending rest).sendTx f))
  | sinkFail (rest : List Event) (k : Nat) (f : List Byte) (hp : s.pending = .sink (.fail k) :: rest)
      (hw : s.enc.write = some f) :
      StepCase s (finishEnc .transportFailure ((s.withPending rest).sendTx (f.take k)))
  | reset (rest : List Event) (k : Nat) (hp : s.pending = .reset k :: rest) :
      StepCase s (((abandonWrite k (s.withPending rest)).withDec Dec.reset).withEnc Enc.reset)
  | callerRead (rest : List Event) (a : CallerAccess) (hp : s.pending = .caller a :: rest) :
      StepCase s (s.withPending rest)
  | callerWriteOut (rest : List Event) (x : Nat) (v : Byte) (hp : s.pending = .caller (.writeOut x v) :: rest)
      (ho : ownedByDec s.dec x = false) : StepCase s ((s.withPending rest).withOut (memWrite s.out x v))
  | callerWritePay (rest : List Event) (x : Nat) (v : Byte) (hp : s.pending = .caller (.writePay x v) :: rest)
      (ho : ownedByEnc s.enc x = false) : StepCase s ((s.withPending rest).withPay (memWrite s.pay x v))

/-- What a received byte does. -/
theorem stepCase_byte {b : Byte} {rest : List Event} {x : Context} (hp : s.pending = .src (.byte b) :: rest)
    (hx : rxContext s.dec = some x) (h : exec (decodeSymbol s.cfg x b) (s.withPending rest) = .next t) :
    StepCase s t := by
  unfold rxContext at hx
  split at hx
  · cases hx
  · next hph =>
    cases hx
    simp only [decodeSymbol] at h
    split at h
    · next hb => obtain ⟨-, rfl⟩ := execSeekEnd_next h; subst hb; exact .seekEnd rest hp hph
    · next hb => obtain ⟨-, rfl⟩ := execSeekSkip_next b h; exact .seekSkip rest b hp hb hph
  · next hph =>
    cases hx
    simp only [decodeSymbol] at h
    split at h
    · next hb => obtain ⟨-, rfl⟩ := execCopyEnd_next h; subst hb; exact .copyEnd rest hp hph
    · next hb =>
      split at h
      · obtain ⟨-, hl, rfl⟩ := execCopyOvf_next b h; exact .copyOvf rest b hp hb hph hl
      · split at h
        · next he => obtain ⟨-, hl, rfl⟩ := execCopyEsc_next h; subst he; exact .copyEsc rest hp hph hl
        · next he => obtain ⟨-, hl, rfl⟩ := execCopyLit_next h; exact .copyLit rest b hp hb he hph hl
  · next hph =>
    cases hx
    simp only [decodeSymbol] at h
    split at h
    · next hb => obtain ⟨-, hl, rfl⟩ := execEscapedMend_next h; subst hb; exact .escapedMend rest hp hph hl
    · next hd =>
      split at h
      · next hb => obtain ⟨-, hl, rfl⟩ := execEscapedMesc_next h; subst hb; exact .escapedMesc rest hp hph hl
      · next he => obtain ⟨-, rfl⟩ := execEscapedBad_next b h; exact .escapedBad rest b hp hd he hph
  · next hph =>
    cases hx
    simp only [decodeSymbol] at h
    split at h
    · next hb => obtain ⟨-, e, he, rfl⟩ := execResyncEnd_next h; subst hb; exact .resyncEnd rest e hp hph he
    · next hb => obtain ⟨-, rfl⟩ := execResyncSkip_next b h; exact .resyncSkip rest b hp hb hph

/-- What the row of a payload byte emits: its escape (R112). -/
theorem exec_txSymbol_next {b : Byte} (h : exec (decodeSymbol s.cfg .tx b) s = .next t) :
    inBody s.enc = true ∧ t = emitBytes (escByte s.cfg b) (s.enc.idx + 1) .eBody s := by
  unfold escByte
  simp only [decodeSymbol] at h
  split at h
  · next hd => rw [if_pos hd]; exact execTxEscd_next h
  · next hd =>
    split at h
    · next he => rw [if_neg hd, if_pos he]; exact execTxEsce_next h
    · next he => rw [if_neg hd, if_neg he]; exact execTxLit_next h

/-- What an emission step does. -/
theorem stepCase_emit {i : Instr} {rest : List Event} (hp : s.pending = .emit :: rest)
    (hs : selectEmission (s.withPending rest) = .run i) (h : exec i (s.withPending rest) = .next t) :
    StepCase s t := by
  rcases selectEmission_run hs with ⟨h1, h2, rfl⟩ | ⟨h1, h2, h3, rfl⟩ | ⟨h1, h2, -, b, hb, rfl⟩
  · obtain ⟨-, -, rfl⟩ := execTxOpen_next h; exact .txOpen rest hp h1 h2
  · obtain ⟨-, -, -, rfl⟩ := execTxClose_next h; exact .txClose rest hp h1 h2 h3
  · obtain ⟨hi, rfl⟩ := exec_txSymbol_next h
    exact .txByte rest b hp h1 h2 ((inBody_iff _).1 hi).2.2 hb

/-- The inversion of a step. -/
theorem step_cases (h : step s = .next t) : s.cfg.admissible = true ∧ StepCase s t := by
  obtain ⟨ha, ⟨hp, rfl⟩ | ⟨e, rest, hp, h⟩⟩ := step_next h
  · exact ⟨ha, .quiet hp⟩
  refine ⟨ha, ?_⟩
  cases e with
  | decode m o => obtain ⟨h1, h2, rfl⟩ := execDecode_next h; exact .decode rest m o hp h1 h2
  | encode a n => obtain ⟨h1, h2, p, h3, rfl⟩ := execEncode_next h; exact .encode rest a n p hp h1 h2 h3
  | src a =>
    simp only [selectEvent, selectAnswer, State.withPending_dec, State.withPending_cfg] at h
    split at h
    · cases h
    · next x b hx => exact stepCase_byte hp hx h
    · next x hx =>
      obtain ⟨h1, rfl⟩ := execSrcFail_next h
      exact .srcFail rest hp h1
  | sink a =>
    cases a with
    | ok => obtain ⟨f, hw, rfl⟩ := sinkOk_next h; exact .sinkOk rest f hp hw
    | fail k => obtain ⟨f, hw, rfl⟩ := sinkFail_next h; exact .sinkFail rest k f hp hw
  | emit =>
    simp only [selectEvent] at h
    generalize hs : selectEmission (s.withPending rest) = x at h
    cases x with
    | run i => exact stepCase_emit hp hs h
    | refuse r => cases h
    | fault r => cases h
    | _ => unfold selectEmission at hs; repeat' split at hs
           all_goals cases hs
  | reset k => cases h; exact .reset rest k hp
  | caller a =>
    cases a with
    | readOut x =>
      simp only [selectEvent, perform, callerAccess] at h
      split at h <;> cases h
      exact .callerRead rest _ hp
    | readPay x => cases h; exact .callerRead rest _ hp
    | writeOut x v =>
      simp only [selectEvent, perform, callerAccess] at h
      split at h
      · cases h
      · next ho => cases h; exact .callerWriteOut rest x v hp (by simpa using ho)
    | writePay x v =>
      simp only [selectEvent, perform, callerAccess] at h
      split at h
      · cases h
      · next ho => cases h; exact .callerWritePay rest x v hp (by simpa using ho)

/-- Steps compose. -/
theorem steps_add (m n : Nat) (s : State) (h : steps m s = .next t) : steps (m + n) s = steps n t := by
  induction m generalizing s with
  | zero => simp only [steps, Host.Outcome.next.injEq] at h; simp [h]
  | succ m ih =>
    rw [Nat.succ_add]
    simp only [steps] at h ⊢
    split at h
    · next u hu => exact ih u h
    · cases h
    · cases h

/-- One step and then more. -/
theorem steps_succ {u : State} (k : Nat) (h : step s = .next u) : steps (k + 1) s = steps k u := by
  simp [steps, h]

/-- `steps` is the host's run of the machine. -/
theorem steps_eq_run (k : Nat) (s : State) : Host.Core.run core k s = steps k s := by
  induction k generalizing s with
  | zero => rfl
  | succ k ih =>
    cases h : step s with
    | next t => have h' : core.step s = .next t := h; simp [Host.Core.run, h', steps, h, ih]; rfl
    | fault r => have h' : core.step s = .fault r := h; simp [Host.Core.run, h', steps, h]; rfl
    | refused r => have h' : core.step s = .refused r := h; simp [Host.Core.run, h', steps, h]; rfl

end Sys2Proof.Machine
end

