-- ==== Sys2Proof/Laws/Run.lean ====
section
/-! SUPPORT. One forward equation a step: what `step` answers on each event, from conditions on the state alone, and the
event lists of a stream. -/

namespace Sys2Proof.Machine

variable {s : State} {rest : List Event}

theorem srcBytes_append (as bs : List Byte) : srcBytes (as ++ bs) = srcBytes as ++ srcBytes bs := by
  induction as <;> simp [srcBytes, *]

theorem srcBytes_length (bs : List Byte) : (srcBytes bs).length = bs.length := by
  induction bs <;> simp [srcBytes, *]

theorem srcBytes_eq_srcEvents (bs : List Byte) : srcBytes bs = srcEvents (bs.map .byte) := by
  induction bs <;> simp [srcBytes, srcEvents, *]

/-- A decode command to an idle decoder (R140). -/
theorem step_of_decode {m o : Nat} (ha : s.cfg.admissible = true) (hp : s.pending = .decode m o :: rest)
    (hph : s.dec.phase = .idle) (hl : ∀ k, s.cfg.lenMax = some k → m ≤ k) :
    step s = .next ((s.withPending rest).withDec { phase := .seek, len := 0, cap := m, status := .none, out := o }) := by
  rw [← Config.lengthOk_iff] at hl
  rw [step_event ha hp]
  simp [selectEvent, perform, exec, execDecode, hph, hl]

/-- R142. -/
theorem step_of_seekEnd (ha : s.cfg.admissible = true) (hp : s.pending = .src (.byte s.cfg.delim) :: rest)
    (hph : s.dec.phase = .seek) :
    step s = .next ((s.withPending rest).withDec { s.dec with phase := .copy }) := by
  rw [step_event ha hp]
  simp [selectEvent, selectAnswer, rxContext, hph, decodeSymbol, perform, exec, execSeekEnd]

/-- R143. -/
theorem step_of_seekSkip {b : Byte} (ha : s.cfg.admissible = true) (hp : s.pending = .src (.byte b) :: rest)
    (hb : b ≠ s.cfg.delim) (hph : s.dec.phase = .seek) : step s = .next (s.withPending rest) := by
  rw [step_event ha hp]
  simp [selectEvent, selectAnswer, rxContext, hph, decodeSymbol, perform, exec, execSeekSkip, hb]

/-- R144. -/
theorem step_of_copyEnd (ha : s.cfg.admissible = true) (hp : s.pending = .src (.byte s.cfg.delim) :: rest)
    (hph : s.dec.phase = .copy) : step s = .next (finishDec (.ok s.dec.len) (s.withPending rest)) := by
  rw [step_event ha hp]
  simp [selectEvent, selectAnswer, rxContext, hph, decodeSymbol, perform, exec, execCopyEnd]

/-- R146. -/
theorem step_of_copyOvf {b : Byte} (ha : s.cfg.admissible = true) (hp : s.pending = .src (.byte b) :: rest)
    (hb : b ≠ s.cfg.delim) (hph : s.dec.phase = .copy) (hl : s.dec.len = s.dec.cap) :
    step s = .next (raiseDec .frameTooLarge (s.withPending rest)) := by
  rw [step_event ha hp]
  simp [selectEvent, selectAnswer, rxContext, hph, decodeSymbol, perform, exec, execCopyOvf, hb, hl]

/-- R150. -/
theorem step_of_copyEsc (ha : s.cfg.admissible = true) (hp : s.pending = .src (.byte s.cfg.esc) :: rest)
    (hph : s.dec.phase = .copy) (hl : s.dec.len < s.dec.cap) :
    step s = .next ((s.withPending rest).withDec { s.dec with phase := .escaped }) := by
  have hde := Ne.symm ((Config.admissible_iff _).1 ha).1
  rw [step_event ha hp]
  simp [selectEvent, selectAnswer, rxContext, hph, decodeSymbol, perform, exec, execCopyEsc, hde, hl, Nat.ne_of_lt hl]

/-- R148. -/
theorem step_of_copyLit {b : Byte} (ha : s.cfg.admissible = true) (hp : s.pending = .src (.byte b) :: rest)
    (hb : b ≠ s.cfg.delim) (he : b ≠ s.cfg.esc) (hph : s.dec.phase = .copy) (hl : s.dec.len < s.dec.cap) :
    step s = .next (((s.withPending rest).withOut (memWrite s.out (s.dec.out + s.dec.len) b)).withDec
      { s.dec with len := s.dec.len + 1, phase := .copy }) := by
  rw [step_event ha hp]
  simp [selectEvent, selectAnswer, rxContext, hph, decodeSymbol, perform, exec, execCopyLit, hb, he, hl,
    Nat.ne_of_lt hl, appendOut, outAddr]

/-- R152. -/
theorem step_of_escapedMend (ha : s.cfg.admissible = true) (hp : s.pending = .src (.byte s.cfg.mEnd) :: rest)
    (hph : s.dec.phase = .escaped) (hl : s.dec.len < s.dec.cap) :
    step s = .next (((s.withPending rest).withOut (memWrite s.out (s.dec.out + s.dec.len) s.cfg.delim)).withDec
      { s.dec with len := s.dec.len + 1, phase := .copy }) := by
  rw [step_event ha hp]
  simp [selectEvent, selectAnswer, rxContext, hph, decodeSymbol, perform, exec, execEscapedMend, hl, appendOut, outAddr]

/-- R153. -/
theorem step_of_escapedMesc (ha : s.cfg.admissible = true) (hp : s.pending = .src (.byte s.cfg.mEsc) :: rest)
    (hph : s.dec.phase = .escaped) (hl : s.dec.len < s.dec.cap) :
    step s = .next (((s.withPending rest).withOut (memWrite s.out (s.dec.out + s.dec.len) s.cfg.esc)).withDec
      { s.dec with len := s.dec.len + 1, phase := .copy }) := by
  have hmm := Ne.symm ((Config.admissible_iff _).1 ha).2.1
  rw [step_event ha hp]
  simp [selectEvent, selectAnswer, rxContext, hph, decodeSymbol, perform, exec, execEscapedMesc, hl, appendOut,
    outAddr, hmm]

/-- R154. -/
theorem step_of_escapedBad {b : Byte} (ha : s.cfg.admissible = true) (hp : s.pending = .src (.byte b) :: rest)
    (h1 : b ≠ s.cfg.mEnd) (h2 : b ≠ s.cfg.mEsc) (hph : s.dec.phase = .escaped) :
    step s = .next (raiseDec .invalidEscape (s.withPending rest)) := by
  rw [step_event ha hp]
  simp [selectEvent, selectAnswer, rxContext, hph, decodeSymbol, perform, exec, execEscapedBad, h1, h2]

/-- R156. -/
theorem step_of_resyncEnd {e : ErrorCode} (ha : s.cfg.admissible = true)
    (hp : s.pending = .src (.byte s.cfg.delim) :: rest) (hph : s.dec.phase = .resync)
    (he : pendingError s.dec.status = some e) : step s = .next (finishDec (.err e) (s.withPending rest)) := by
  rw [step_event ha hp]
  simp [selectEvent, selectAnswer, rxContext, hph, decodeSymbol, perform, exec, execResyncEnd, he]

/-- R157. -/
theorem step_of_resyncSkip {b : Byte} (ha : s.cfg.admissible = true) (hp : s.pending = .src (.byte b) :: rest)
    (hb : b ≠ s.cfg.delim) (hph : s.dec.phase = .resync) : step s = .next (s.withPending rest) := by
  rw [step_event ha hp]
  simp [selectEvent, selectAnswer, rxContext, hph, decodeSymbol, perform, exec, execResyncSkip, hb]

/-- R160. -/
theorem step_of_srcFail (ha : s.cfg.admissible = true) (hp : s.pending = .src .fail :: rest)
    (hph : s.dec.phase ≠ .idle) : step s = .next (raiseDec .transportFailure (s.withPending rest)) := by
  rw [step_event ha hp]
  obtain ⟨x, hx⟩ : ∃ x, rxContext s.dec = some x := by
    cases h : s.dec.phase <;> simp [rxContext, h]
    exact hph h
  simp [selectEvent, selectAnswer, hx, perform, exec, execSrcFail, hph]

/-- An encode command to an idle encoder (R110). -/
theorem step_of_encode {a n : Nat} {p : List Byte} (ha : s.cfg.admissible = true)
    (hp : s.pending = .encode a n :: rest) (hph : s.enc.phase = .idle) (hl : ∀ k, s.cfg.lenMax = some k → n ≤ k)
    (hb : memReadBytes s.pay a n = some p) :
    step s = .next ((s.withPending rest).withEnc
      { phase := .writing, n := n, idx := 0, pay := a, write := some (frame s.cfg p), sub := .eOpen, emitted := [] }) := by
  rw [← Config.lengthOk_iff] at hl
  rw [step_event ha hp]
  simp [selectEvent, perform, exec, execEncode, hph, hl, hb]

/-- R120. -/
theorem step_of_sinkOk {f : List Byte} (ha : s.cfg.admissible = true) (hp : s.pending = .sink .ok :: rest)
    (hw : s.enc.write = some f) : step s = .next (finishEnc .ok ((s.withPending rest).sendTx f)) := by
  rw [step_event ha hp]
  simp [selectEvent, perform, sinkOk, hw]

/-- R121. -/
theorem step_of_sinkFail {f : List Byte} {k : Nat} (ha : s.cfg.admissible = true)
    (hp : s.pending = .sink (.fail k) :: rest) (hw : s.enc.write = some f) :
    step s = .next (finishEnc .transportFailure ((s.withPending rest).sendTx (f.take k))) := by
  rw [step_event ha hp]
  simp [selectEvent, perform, sinkFail, hw]

/-- R113. -/
theorem step_of_txOpen (ha : s.cfg.admissible = true) (hp : s.pending = .emit :: rest)
    (hph : s.enc.phase = .writing) (hs : s.enc.sub = .eOpen) :
    step s = .next (emitBytes [s.cfg.delim] s.enc.idx .eBody (s.withPending rest)) := by
  rw [step_event ha hp]
  simp [selectEvent, selectEmission, hph, hs, perform, exec, execTxOpen]

/-- R114 to R116, in one: the payload byte's escape (R112) is emitted. -/
theorem step_of_txByte {b : Byte} (ha : s.cfg.admissible = true) (hp : s.pending = .emit :: rest)
    (hph : s.enc.phase = .writing) (hs : s.enc.sub = .eBody) (hi : s.enc.idx < s.enc.n)
    (hb : memRead s.pay (s.enc.pay + s.enc.idx) = some b) :
    step s = .next (emitBytes (escByte s.cfg b) (s.enc.idx + 1) .eBody (s.withPending rest)) := by
  have hin : inBody s.enc = true := (inBody_iff _).2 ⟨hph, hs, hi⟩
  rw [step_event ha hp]
  by_cases hd : b = s.cfg.delim
  · simp [selectEvent, selectEmission, hph, hs, Nat.ne_of_lt hi, payAddr, hb, perform, decodeSymbol, escByte, hd, exec,
      execTxEscd, hin]
  · by_cases he : b = s.cfg.esc
    · have hde : s.cfg.esc ≠ s.cfg.delim := Ne.symm ((Config.admissible_iff _).1 ha).1
      simp [selectEvent, selectEmission, hph, hs, Nat.ne_of_lt hi, payAddr, hb, perform, decodeSymbol, escByte, hde, he,
        exec, execTxEsce, hin]
    · simp [selectEvent, selectEmission, hph, hs, Nat.ne_of_lt hi, payAddr, hb, perform, decodeSymbol, escByte, hd, he,
        exec, execTxLit, hin]

/-- R117. -/
theorem step_of_txClose (ha : s.cfg.admissible = true) (hp : s.pending = .emit :: rest)
    (hph : s.enc.phase = .writing) (hs : s.enc.sub = .eBody) (hi : s.enc.idx = s.enc.n) :
    step s = .next (emitBytes [s.cfg.delim] s.enc.idx .eDone (s.withPending rest)) := by
  rw [step_event ha hp]
  simp [selectEvent, selectEmission, hph, hs, hi, perform, exec, execTxClose]

end Sys2Proof.Machine
end

