-- ==== Sys2Proof/Tests/Slice0.lean ====
section
/-! SUPPORT. The model's own tests: the operand checks, words written bit by bit from 30_encoding.md, one step of each
operation on the vectors of 95_test_vectors.md, and for every statement with hypotheses a state that meets them. -/

namespace Sys2Proof.Tests

open Sys2Proof.Machine

/-! ## WellFormed: each check refuses an ill-formed term (tables R85 to R88, R96; R42) -/

theorem test_wf_accepts_literals :
    (Instr.seekSkip 0xDB).wellFormed .default = true ∧ (Instr.copyOvf 0xDB).wellFormed .default = true
    ∧ (Instr.copyLit 0xDC).wellFormed .default = true ∧ (Instr.escapedBad 0xC0).wellFormed .default = true
    ∧ (Instr.resyncSkip 0xDB).wellFormed .default = true ∧ (Instr.txLit 0xDD).wellFormed .default = true := by decide

theorem test_wf_seekSkip_refuses_delim : (Instr.seekSkip 0xC0).wellFormed .default = false := by decide

theorem test_wf_copyOvf_refuses_delim : (Instr.copyOvf 0xC0).wellFormed .default = false := by decide

theorem test_wf_copyLit_refuses_delim_and_esc :
    (Instr.copyLit 0xC0).wellFormed .default = false ∧ (Instr.copyLit 0xDB).wellFormed .default = false := by decide

theorem test_wf_escapedBad_refuses_markers :
    (Instr.escapedBad 0xDC).wellFormed .default = false
    ∧ (Instr.escapedBad 0xDD).wellFormed .default = false := by decide

theorem test_wf_resyncSkip_refuses_delim : (Instr.resyncSkip 0xC0).wellFormed .default = false := by decide

theorem test_wf_txLit_refuses_delim_and_esc :
    (Instr.txLit 0xC0).wellFormed .default = false ∧ (Instr.txLit 0xDB).wellFormed .default = false := by decide

/-- A configuration with a bound on lengths (R7, D11 leaves it open). -/
def bounded : Config := { Config.default with lenMax := some 4 }

theorem test_wf_commands_refuse_long_lengths :
    (Instr.encode 0 4).wellFormed bounded = true ∧ (Instr.encode 0 5).wellFormed bounded = false
    ∧ (Instr.decode 4 0).wellFormed bounded = true ∧ (Instr.decode 5 0).wellFormed bounded = false := by decide

/-! ## Words written bit by bit (the `encoding` column, bit 7 first) -/

theorem test_word_seekEnd : decodeBytes .default .rxSeek [0b11000000] = .ok .seekEnd [] := by decide

theorem test_word_seekSkip : decodeBytes .default .rxSeek [0b11011011] = .ok (.seekSkip 0b11011011) [] := by decide

theorem test_word_copyEnd :
    decodeBytes .default (.rxCopy false) [0b11000000] = .ok .copyEnd []
    ∧ decodeBytes .default (.rxCopy true) [0b11000000] = .ok .copyEnd [] := by decide

theorem test_word_copyOvf : decodeBytes .default (.rxCopy true) [0b11011011] = .ok (.copyOvf 0b11011011) [] := by decide

theorem test_word_copyEsc : decodeBytes .default (.rxCopy false) [0b11011011] = .ok .copyEsc [] := by decide

theorem test_word_copyLit : decodeBytes .default (.rxCopy false) [0b11011100] = .ok (.copyLit 0b11011100) [] := by decide

theorem test_word_escapedMend : decodeBytes .default .rxEscaped [0b11011100] = .ok .escapedMend [] := by decide

theorem test_word_escapedMesc : decodeBytes .default .rxEscaped [0b11011101] = .ok .escapedMesc [] := by decide

theorem test_word_escapedBad : decodeBytes .default .rxEscaped [0b11000000] = .ok (.escapedBad 0b11000000) [] := by decide

theorem test_word_resyncEnd : decodeBytes .default .rxResync [0b11000000] = .ok .resyncEnd [] := by decide

theorem test_word_resyncSkip : decodeBytes .default .rxResync [0b11011011] = .ok (.resyncSkip 0b11011011) [] := by decide

theorem test_word_tx :
    decodeBytes .default .tx [0b11000000] = .ok .txEscd [] ∧ decodeBytes .default .tx [0b11011011] = .ok .txEsce []
    ∧ decodeBytes .default .tx [0b11111111] = .ok (.txLit 0b11111111) [] := by decide

/-- The host's question: a table word in its canonical context (log entry 19); a word of another width names nothing. -/
theorem test_table_words :
    decodeTableWord 8 0xC0 = some .seekEnd ∧ decodeTableWord 8 0xDB = some .copyEsc
    ∧ decodeTableWord 8 0xDC = some .escapedMend ∧ decodeTableWord 8 0xDD = some .escapedMesc
    ∧ decodeTableWord 8 0x00 = some (.copyLit 0x00) ∧ decodeTableWord 16 0xC0 = none := by decide

/-! ## One step -/

/-- A field of the next state, if there is one. -/
def field {α : Type} (o : Result) (f : State → α) : Option α :=
  match o with
  | .next t => some (f t)
  | .fault _ => none
  | .refused _ => none

/-- Why a step stopped, if it did. -/
def stopped (o : Result) : Option (Fault ⊕ Refusal) :=
  match o with
  | .next _ => none
  | .fault r => some (.inl r)
  | .refused r => some (.inr r)

/-- A decoder whose buffer begins at address 16, with these events next. -/
def rx (ph : DPhase) (len cap : Nat) (st : DStatus) (es : List Event) : State :=
  { State.reset with dec := { phase := ph, len := len, cap := cap, status := st, out := 16 }, pending := es }

/-- An encoder in a call on the payload `p`, placed at address 0, with these events next. -/
def tx (sub : ESub) (idx : Nat) (sent : List Byte) (es : List Event) : State :=
  { State.reset with
    pay := [(0, 0xC0), (1, 0xDB), (2, 0xDC)]
    enc := { phase := .writing, n := 3, idx := idx, pay := 0,
             write := some [0xC0, 0xDB, 0xDC, 0xDB, 0xDD, 0xDC, 0xC0], sub := sub, emitted := sent }
    pending := es }

/-- The source answers one byte. -/
def byte (b : Byte) : Event := .src (.byte b)

/-- V-D1: the first delimiter starts the frame. -/
theorem test_seekEnd :
    field (step (rx .seek 0 4 .none [byte 0xC0])) (fun s => (s.dec.phase, s.dec.len)) = some (.copy, 0) := by decide

/-- V-D3: an escape pair in noise is skipped. -/
theorem test_seekSkip :
    field (step (rx .seek 0 4 .none [byte 0xDB, byte 0xDC])) (fun s => (s.dec.phase, s.pending))
      = some (.seek, [byte 0xDC]) := by decide

/-- V-D12: the closing delimiter is honoured at a full buffer. -/
theorem test_copyEnd_full :
    field (step (rx .copy 2 2 .none [byte 0xC0])) (fun s => (s.dec.phase, s.decResults)) = some (.idle, [.ok 2]) := by
  decide

/-- V-D14: an escape byte at a full buffer overflows. -/
theorem test_copyOvf_escape :
    field (step (rx .copy 2 2 .none [byte 0xDB])) (fun s => (s.dec.phase, s.dec.len, s.dec.status, s.out))
      = some (.resync, 0, .frameTooLarge, []) := by decide

/-- V-D4: the escape byte is not stored. -/
theorem test_copyEsc :
    field (step (rx .copy 0 1 .none [byte 0xDB])) (fun s => (s.dec.phase, s.dec.len, s.out)) = some (.escaped, 0, []) := by
  decide

/-- V-D6: a marker that does not follow the escape byte is a literal. -/
theorem test_copyLit_marker :
    field (step (rx .copy 1 2 .none [byte 0xDD])) (fun s => (s.dec.phase, s.dec.len, s.out))
      = some (.copy, 2, [(17, 0xDD)]) := by decide

/-- V-D4: the escaped delimiter. -/
theorem test_escapedMend :
    field (step (rx .escaped 0 1 .none [byte 0xDC])) (fun s => (s.dec.phase, s.dec.len, s.out))
      = some (.copy, 1, [(16, 0xC0)]) := by decide

/-- V-D5: the escaped escape byte. -/
theorem test_escapedMesc :
    field (step (rx .escaped 0 1 .none [byte 0xDD])) (fun s => (s.dec.phase, s.dec.len, s.out))
      = some (.copy, 1, [(16, 0xDB)]) := by decide

/-- V-D10: a delimiter after the escape byte is a bad escape and no end. -/
theorem test_escapedBad_delim :
    field (step (rx .escaped 0 4 .none [byte 0xC0])) (fun s => (s.dec.phase, s.dec.status, s.decResults))
      = some (.resync, .invalidEscape, []) := by decide

/-- V-A4: the abort resets the length. -/
theorem test_escapedBad_length :
    field (step (rx .escaped 3 4 .none [byte 0x00])) (fun s => s.dec.len) = some 0 := by decide

/-- V-D8: the error is delivered at the delimiter. -/
theorem test_resyncEnd :
    field (step (rx .resync 0 4 .invalidEscape [byte 0xC0])) (fun s => (s.dec.phase, s.decResults))
      = some (.idle, [.err .invalidEscape]) := by decide

/-- V-D11: a marker is skipped in `RESYNC`. -/
theorem test_resyncSkip :
    field (step (rx .resync 0 4 .invalidEscape [byte 0xDC])) (fun s => (s.dec.phase, s.dec.status, s.decResults))
      = some (.resync, .invalidEscape, []) := by decide

/-- V-D25: a failure in `RESYNC` replaces the pending error. -/
theorem test_srcFail_resync :
    field (step (rx .resync 0 4 .invalidEscape [.src .fail])) (fun s => (s.dec.phase, s.decResults))
      = some (.idle, [.err .transportFailure]) := by decide

/-- V-E11, the opening delimiter. -/
theorem test_txOpen :
    field (step (tx .eOpen 0 [] [.emit])) (fun s => (s.enc.sub, s.enc.idx, s.enc.emitted)) = some (.eBody, 0, [0xC0]) := by
  decide

/-- V-E3: the delimiter as payload. -/
theorem test_txEscd :
    field (step (tx .eBody 0 [0xC0] [.emit])) (fun s => (s.enc.idx, s.enc.emitted)) = some (1, [0xC0, 0xDB, 0xDC]) := by
  decide

/-- V-E4: the escape byte as payload. -/
theorem test_txEsce :
    field (step (tx .eBody 1 [] [.emit])) (fun s => (s.enc.idx, s.enc.emitted)) = some (2, [0xDB, 0xDD]) := by decide

/-- V-E5: a marker as payload is a literal. -/
theorem test_txLit_marker :
    field (step (tx .eBody 2 [] [.emit])) (fun s => (s.enc.idx, s.enc.emitted)) = some (3, [0xDC]) := by decide

/-- V-E11, the closing delimiter; nothing follows it (R117). -/
theorem test_txClose :
    field (step (tx .eBody 3 [0xDC] [.emit])) (fun s => (s.enc.sub, s.enc.emitted)) = some (.eDone, [0xDC, 0xC0])
    ∧ stopped (step (tx .eDone 3 [] [.emit])) = some (.inr .nothingToEmit) := by decide

/-- V-E7: the frame of `01 C0 DB 02`. -/
theorem test_encode_frame :
    field (step { State.reset with
      pay := [(5, 0x01), (6, 0xC0), (7, 0xDB), (8, 0x02)], pending := [.encode 5 4] }) (fun s => s.enc.write)
      = some (some [0xC0, 0x01, 0xDB, 0xDC, 0xDB, 0xDD, 0x02, 0xC0]) := by decide

/-- V-E1: the empty frame; V-E16: a command to a busy encoder. -/
theorem test_encode_empty_and_busy :
    field (step { State.reset with pending := [.encode 0 0] }) (fun s => (s.enc.phase, s.enc.write))
      = some (.writing, some [0xC0, 0xC0])
    ∧ stopped (step (tx .eOpen 0 [] [.encode 0 0])) = some (.inr .encoderBusy) := by decide

/-- R140's example: `DECODE(4)`. -/
theorem test_decode_command :
    field (step { State.reset with pending := [.decode 4 16] }) (fun s => s.dec)
      = some { phase := .seek, len := 0, cap := 4, status := .none, out := 16 } := by decide

/-- V-D29: a command to a busy decoder. -/
theorem test_decode_busy : stopped (step (rx .copy 1 4 .none [.decode 4 0])) = some (.inr .decoderBusy) := by decide

/-- V-E14: what a failed write leaves on the wire is one of the four initial parts. -/
theorem test_sink_fail :
    field (step (tx .eOpen 0 [] [.sink (.fail 2)])) (fun s => (s.tx, s.encResults, s.enc.phase))
      = some ([0xC0, 0xDB], [.transportFailure], .idle)
    ∧ field (step (tx .eOpen 0 [] [.sink .ok])) (fun s => (s.tx, s.encResults))
      = some ([0xC0, 0xDB, 0xDC, 0xDB, 0xDD, 0xDC, 0xC0], [.ok]) := by decide

/-! ## Witnesses: for every statement with hypotheses, a state and operands that meet them together; for a statement with
several clauses, one for each clause, at a boundary of its range -/

/-- No bound on lengths. -/
theorem lengths_unbounded (n : Nat) : ∀ m, State.reset.cfg.lenMax = some m → n ≤ m := by
  intro m h; cases h

/-- A length at the bound. -/
theorem length_at_bound : ∀ m, bounded.lenMax = some m → 4 ≤ m := by
  intro m h; cases h; exact Nat.le_refl 4

theorem witness_DecodeInvertsEncode :
    Config.default.admissible = true
    ∧ ((Instr.seekSkip 0xFF).wellFormed .default = true ∧ (Instr.seekSkip 0xFF).inContext .rxSeek = true)
    ∧ ((Instr.copyOvf 0xDB).wellFormed .default = true ∧ (Instr.copyOvf 0xDB).inContext (.rxCopy true) = true)
    ∧ ((Instr.copyLit 0x00).wellFormed .default = true ∧ (Instr.copyLit 0x00).inContext (.rxCopy false) = true)
    ∧ ((Instr.escapedBad 0xC0).wellFormed .default = true ∧ (Instr.escapedBad 0xC0).inContext .rxEscaped = true)
    ∧ ((Instr.resyncSkip 0xDB).wellFormed .default = true ∧ (Instr.resyncSkip 0xDB).inContext .rxResync = true)
    ∧ ((Instr.txLit 0xDC).wellFormed .default = true ∧ (Instr.txLit 0xDC).inContext .tx = true) := by decide

/-- Another admissible choice of the four bytes. -/
def otherBytes : Config := { delim := 0x7E, esc := 0x7D, mEnd := 0x5E, mEsc := 0x5D, lenMax := some 0 }

theorem witness_ExactlyOneRowPerSymbol : otherBytes.admissible = true ∧ Config.default.admissible = true := by decide

theorem witness_RowPriorityAgreesWithTables : otherBytes.admissible = true := by decide

theorem witness_StepRunsSelectedOperation :
    State.reset.cfg.admissible = true
    ∧ (rx .copy 1 1 .none [byte 0xDB]).pending = .src (.byte 0xDB) :: []
    ∧ rxContext (rx .copy 1 1 .none [byte 0xDB]).dec = some (.rxCopy true)
    ∧ decodeBytes (rx .copy 1 1 .none [byte 0xDB]).cfg (.rxCopy true) [0xDB] = .ok (.copyOvf 0xDB) []
    ∧ (rx .resync 0 1 .frameTooLarge [.src .fail]).dec.phase ≠ .idle
    ∧ (tx .eOpen 0 [] [.emit]).enc.phase = .writing ∧ (tx .eOpen 0 [] [.emit]).enc.sub = .eOpen
    ∧ (tx .eBody 3 [] [.emit]).enc.sub = .eBody ∧ (tx .eBody 3 [] [.emit]).enc.idx = (tx .eBody 3 [] [.emit]).enc.n
    ∧ (tx .eBody 2 [] [.emit]).enc.idx ≠ (tx .eBody 2 [] [.emit]).enc.n
    ∧ memRead (tx .eBody 2 [] [.emit]).pay (0 + 2) = some 0xDC
    ∧ decodeBytes (tx .eBody 2 [] [.emit]).cfg .tx [0xDC] = .ok (.txLit 0xDC) [] := by decide

theorem witness_ReceivedByteSelectsByPhase :
    (rx .seek 0 1 .none [byte 0xC0]).cfg.admissible = true
    ∧ (rx .seek 0 1 .none [byte 0xC0]).pending = .src (.byte 0xC0) :: [] ∧ (rx .seek 0 1 .none [byte 0xC0]).dec.phase = .seek
    ∧ (rx .escaped 0 1 .none [byte 0xC0]).dec.phase = .escaped
    ∧ (rx .resync 0 1 .invalidEscape [byte 0xC0]).dec.phase = .resync := by decide

theorem witness_CopyTestOrder :
    (rx .copy 2 2 .none [byte 0xDB]).cfg.admissible = true
    ∧ (rx .copy 2 2 .none [byte 0xDB]).pending = .src (.byte 0xDB) :: [] ∧ (rx .copy 2 2 .none [byte 0xDB]).dec.phase = .copy
    ∧ (rx .copy 1 2 .none [byte 0xDB]).dec.phase = .copy := by decide

theorem witness_UnaskedEventsRefused :
    (rx .idle 0 0 .none [byte 0xC0]).cfg.admissible = true ∧ (rx .idle 0 0 .none [byte 0xC0]).dec.phase = .idle
    ∧ (rx .idle 0 0 .none [.sink .ok]).enc.write = none ∧ (rx .idle 0 0 .none [.emit]).enc.phase = .idle
    ∧ (tx .eDone 3 [] [.emit]).enc.phase = .writing ∧ (tx .eDone 3 [] [.emit]).enc.sub = .eDone := by decide

/-- A state whose parameters break R8: `M_END` equals `DELIM`. -/
def badConfig : State := { State.reset with cfg := { Config.default with mEnd := 0xC0 } }

theorem witness_InadmissibleParametersRefused :
    badConfig.cfg.mEnd = badConfig.cfg.delim
    ∧ ({ Config.default with esc := 0xC0 } : Config).delim = ({ Config.default with esc := 0xC0 } : Config).esc
    ∧ ({ Config.default with mEsc := 0xDC } : Config).mEnd = ({ Config.default with mEsc := 0xDC } : Config).mEsc
    ∧ ({ Config.default with mEsc := 0xC0 } : Config).mEsc = ({ Config.default with mEsc := 0xC0 } : Config).delim
    ∧ ({ Config.default with mEnd := 0xDB } : Config).mEnd = ({ Config.default with mEnd := 0xDB } : Config).esc
    ∧ ({ Config.default with mEsc := 0xDB } : Config).mEsc = ({ Config.default with mEsc := 0xDB } : Config).esc := by
  decide

theorem witness_UnansweredReadKeepsDecoder :
    (rx .copy 1 4 .none []).cfg.admissible = true ∧ step (rx .copy 1 4 .none []) = .next (rx .copy 1 4 .none [])
    ∧ step (rx .copy 1 4 .none [.caller (.readPay 0)]) = .next (rx .copy 1 4 .none [])
    ∧ (∀ a rest, (rx .copy 1 4 .none []).pending ≠ .src a :: rest)
    ∧ (∀ m o rest, (rx .copy 1 4 .none []).pending ≠ .decode m o :: rest)
    ∧ (∀ k rest, (rx .copy 1 4 .none []).pending ≠ .reset k :: rest) := by
  refine ⟨rfl, rfl, rfl, ?_, ?_, ?_⟩ <;> simp [rx]

theorem witness_DecodeCommandStartsCall :
    State.reset.dec.phase = .idle ∧ (∀ m, bounded.lenMax = some m → 4 ≤ m)
    ∧ ({ State.reset with cfg := bounded } : State).dec.phase = .idle := ⟨rfl, length_at_bound, rfl⟩

theorem witness_SeekSymbols : (rx .seek 0 0 .none []).dec.phase = .seek := by decide

theorem witness_ClosingDelimiterReturnsLength :
    (rx .copy 0 0 .none []).dec.phase = .copy ∧ (rx .copy 4 4 .none []).dec.phase = .copy := by decide

theorem witness_FullBufferRaisesFrameTooLarge :
    (rx .copy 0 0 .none []).dec.phase = .copy ∧ (rx .copy 0 0 .none []).dec.len = (rx .copy 0 0 .none []).dec.cap := by decide

theorem witness_EscapeByteEntersEscaped :
    (rx .copy 0 1 .none []).dec.phase = .copy ∧ (rx .copy 0 1 .none []).dec.len < (rx .copy 0 1 .none []).dec.cap := by decide

theorem witness_LiteralIsAppended :
    (rx .copy 3 4 .none []).dec.phase = .copy ∧ (rx .copy 3 4 .none []).dec.len < (rx .copy 3 4 .none []).dec.cap := by decide

theorem witness_MarkersAppendReservedBytes :
    (rx .escaped 3 4 .none []).dec.phase = .escaped
    ∧ (rx .escaped 3 4 .none []).dec.len < (rx .escaped 3 4 .none []).dec.cap := by decide

theorem witness_BadEscapeAbortsFrame :
    (rx .escaped 0 1 .none []).dec.phase = .escaped ∧ (rx .escaped 0 1 .none []).cfg.admissible = true := by decide

theorem witness_ResyncSymbols :
    (rx .resync 0 4 .invalidEscape []).dec.phase = .resync ∧ (rx .resync 0 4 .invalidEscape []).dec.status = .invalidEscape
    ∧ (rx .resync 0 0 .frameTooLarge []).dec.phase = .resync
    ∧ (rx .resync 0 0 .frameTooLarge []).dec.status = .frameTooLarge := by decide

theorem witness_SourceFailureEndsCall :
    (rx .seek 0 0 .none []).dec.phase ≠ .idle ∧ (rx .resync 0 0 .frameTooLarge []).dec.phase ≠ .idle := by decide

theorem witness_RowsOutOfPlaceStop :
    ((rx .idle 0 0 .none []).dec.phase ≠ .seek ∧ (rx .idle 0 0 .none []).dec.phase ≠ .copy
      ∧ (rx .idle 0 0 .none []).dec.phase ≠ .escaped ∧ (rx .idle 0 0 .none []).dec.phase ≠ .resync
      ∧ (rx .idle 0 0 .none []).dec.phase = .idle ∧ (rx .idle 0 0 .none []).enc.phase = .idle)
    ∧ (rx .copy 3 4 .none []).dec.len ≠ (rx .copy 3 4 .none []).dec.cap
    ∧ (rx .copy 4 4 .none []).dec.cap ≤ (rx .copy 4 4 .none []).dec.len
    ∧ ((rx .escaped 4 4 .none []).dec.phase = .escaped
      ∧ (rx .escaped 4 4 .none []).dec.cap ≤ (rx .escaped 4 4 .none []).dec.len)
    ∧ ((rx .resync 0 4 .none []).dec.phase = .resync ∧ (rx .resync 0 4 .none []).dec.status = .none)
    ∧ (tx .eBody 0 [] []).enc.sub ≠ .eOpen ∧ (tx .eOpen 0 [] []).enc.sub ≠ .eBody
    ∧ (tx .eBody 3 [] []).enc.n ≤ (tx .eBody 3 [] []).enc.idx
    ∧ (tx .eBody 2 [] []).enc.idx ≠ (tx .eBody 2 [] []).enc.n := by decide

theorem witness_DecoderFrame :
    decOperation (.copyLit 0x41) = true
    ∧ (∃ t, exec (.copyLit 0x41) (rx .copy 3 4 .none []) = .next t)
    ∧ decOperation .copyEnd = true ∧ (∃ t, exec .copyEnd (rx .copy 3 4 .none []) = .next t) :=
  ⟨rfl, ⟨_, rfl⟩, rfl, ⟨_, rfl⟩⟩

/-- An idle encoder with the payload `C0 41` placed at address 8. -/
def placed (es : List Event) : State := { State.reset with pay := [(8, 0xC0), (9, 0x41)], pending := es }

theorem witness_EncodeCommandIssuesFrame :
    (placed []).enc.phase = .idle ∧ (∀ m, (placed []).cfg.lenMax = some m → 2 ≤ m)
    ∧ memReadBytes (placed []).pay 8 2 = some [0xC0, 0x41] ∧ memReadBytes (placed []).pay 0 0 = some [] :=
  ⟨rfl, lengths_unbounded 2, rfl, rfl⟩

theorem witness_CommandsStop :
    (rx .seek 0 0 .none []).dec.phase ≠ .idle
    ∧ (({ State.reset with cfg := bounded } : State).dec.phase = .idle ∧ bounded.lenMax = some 4 ∧ 4 < 5)
    ∧ (tx .eOpen 0 [] []).enc.phase = .writing ∧ ({ State.reset with cfg := bounded } : State).enc.phase = .idle
    ∧ ((placed []).enc.phase = .idle ∧ (∀ m, (placed []).cfg.lenMax = some m → 3 ≤ m) ∧ 2 < 3
      ∧ memRead (placed []).pay (8 + 2) = none) :=
  ⟨by decide, ⟨rfl, rfl, by decide⟩, rfl, rfl, rfl, lengths_unbounded 3, by decide, rfl⟩

theorem witness_EmissionRules :
    (tx .eOpen 0 [] []).enc.phase = .writing ∧ (tx .eOpen 0 [] []).enc.sub = .eOpen
    ∧ ((tx .eBody 2 [] []).enc.sub = .eBody ∧ (tx .eBody 2 [] []).enc.idx < (tx .eBody 2 [] []).enc.n)
    ∧ ((tx .eBody 3 [] []).enc.sub = .eBody ∧ (tx .eBody 3 [] []).enc.idx = (tx .eBody 3 [] []).enc.n) := by decide

theorem witness_EncoderFrame :
    decOperation .txClose = false ∧ (∃ t, exec .txClose (tx .eBody 3 [] []) = .next t)
    ∧ decOperation (.encode 8 2) = false ∧ (∃ t, exec (.encode 8 2) (placed []) = .next t) :=
  ⟨rfl, ⟨_, rfl⟩, rfl, ⟨_, rfl⟩⟩

theorem witness_SinkOkEndsCall :
    (tx .eOpen 0 [] [.sink .ok]).cfg.admissible = true ∧ (tx .eOpen 0 [] [.sink .ok]).pending = .sink .ok :: []
    ∧ (tx .eOpen 0 [] [.sink .ok]).enc.write = some [0xC0, 0xDB, 0xDC, 0xDB, 0xDD, 0xDC, 0xC0]
    ∧ encoderInv (tx .eOpen 0 [] [.sink .ok]) :=
  ⟨rfl, rfl, rfl, by decide, fun h => (by cases h), fun _ => ⟨[0xC0, 0xDB, 0xDC], rfl, rfl, rfl, rfl⟩⟩

theorem witness_SinkFailureEndsCall :
    (tx .eOpen 0 [] [.sink (.fail 7)]).cfg.admissible = true
    ∧ (tx .eOpen 0 [] [.sink (.fail 7)]).enc.write = some [0xC0, 0xDB, 0xDC, 0xDB, 0xDD, 0xDC, 0xC0]
    ∧ (tx .eOpen 0 [] [.sink (.fail 7)]).pending = .sink (.fail 7) :: []
    ∧ ([] : List Byte) <+: [0xC0, 0xDB, 0xDC, 0xDB, 0xDD, 0xDC, 0xC0]
    ∧ (tx .eOpen 0 [] [.sink (.fail 0)]).pending = .sink (.fail ([] : List Byte).length) :: [] := by decide

theorem witness_EncodeResultsComeFromSink :
    ((placed []).enc.phase = .idle ∧ (∀ m, (placed []).cfg.lenMax = some m → 2 ≤ m)
      ∧ memReadBytes (placed []).pay 8 2 = some [0xC0, 0x41])
    ∧ ∃ t, step (tx .eOpen 0 [] [.sink .ok]) = .next t ∧ t.encResults ≠ (tx .eOpen 0 [] [.sink .ok]).encResults :=
  ⟨⟨rfl, lengths_unbounded 2, rfl⟩, _, rfl, by decide⟩

theorem witness_EmissionYieldsFrame :
    (placed []).cfg.admissible = true ∧ (placed []).enc.phase = .idle
    ∧ (∀ m, (placed []).cfg.lenMax = some m → 2 ≤ m) ∧ memReadBytes (placed []).pay 8 2 = some [0xC0, 0x41] :=
  ⟨rfl, rfl, lengths_unbounded 2, rfl⟩

/-- For FrameLengthFormula, NoRawDelimiterInTransit and FrameInjective. -/
theorem witness_FrameLaws : otherBytes.admissible = true ∧ frame otherBytes [] = frame otherBytes [] := by decide

/-- The escape byte in a frame, as the second clause of the statement about pairs reads it. -/
theorem witness_EscapeOnlyStartsPairs :
    Config.default.admissible = true ∧ frame .default [0xDB] = [0xC0] ++ Config.default.esc :: [0xDD, 0xC0] := by decide

theorem witness_SuccessiveFramesConcatenate :
    (placed []).cfg.admissible = true ∧ (placed []).cfg.lenMax = none ∧ (placed []).enc.phase = .idle
    ∧ ∀ x ∈ [(8, [0xC0, 0x41]), (9, [0x41]), (0, ([] : List Byte))],
        memReadBytes (placed []).pay x.1 x.2.length = some x.2 := by decide

theorem witness_ResetEventAbandonsCalls :
    (tx .eOpen 0 [] [.reset 3]).cfg.admissible = true ∧ (tx .eOpen 0 [] [.reset 3]).pending = .reset 3 :: []
    ∧ (tx .eOpen 0 [] [.reset 3]).enc.write = some [0xC0, 0xDB, 0xDC, 0xDB, 0xDD, 0xDC, 0xC0]
    ∧ (rx .copy 1 4 .none [.reset 0]).enc.write = none := by decide

theorem witness_StepKeepsDecoderInvariant :
    decoderInv (rx .copy 3 4 .none [byte 0xDB])
    ∧ (∃ t, step (rx .copy 3 4 .none [byte 0xDB]) = .next t)
    ∧ decoderInv (rx .copy 4 4 .none [byte 0xDB]) ∧ ∃ t, step (rx .copy 4 4 .none [byte 0xDB]) = .next t := by
  refine ⟨?_, ⟨_, rfl⟩, ?_, _, rfl⟩ <;> simp [decoderInv, rx]

theorem witness_StepKeepsEncoderInvariant :
    encoderInv (tx .eOpen 0 [] [.emit]) ∧ (∃ t, step (tx .eOpen 0 [] [.emit]) = .next t)
    ∧ encoderInv State.reset ∧ ∃ t, step State.reset = .next t :=
  ⟨⟨by decide, fun h => (by cases h), fun _ => ⟨[0xC0, 0xDB, 0xDC], rfl, rfl, rfl, rfl⟩⟩, ⟨_, rfl⟩,
    ⟨by decide, fun _ => rfl, fun h => (by cases h)⟩, _, rfl⟩

theorem witness_StepKeepsMemoryCanonical :
    memoryInv (rx .copy 3 4 .none [byte 0x41]) ∧ ∃ t, step (rx .copy 3 4 .none [byte 0x41]) = .next t :=
  ⟨⟨rfl, rfl⟩, _, rfl⟩

theorem witness_StoreSetsOneByte : (17 : Nat) ≠ 16 ∧ Memory.wf [(16, 0x41), (18, 0x42)] = true := by decide

/-- The same decoder beside another encoder. -/
theorem witness_UnitsShareNoState :
    (rx .seek 0 1 .none [byte 0xC0]).pending = byte 0xC0 :: []
    ∧ ({ tx .eOpen 0 [] [byte 0xC0, .emit] with dec := (rx .seek 0 1 .none []).dec } : State).pending
        = byte 0xC0 :: [.emit]
    ∧ (∃ t, step (rx .seek 0 1 .none [byte 0xC0]) = .next t) ∧ decEvent (byte 0xC0) = true
    ∧ (tx .eOpen 0 [] [.emit]).pending = .emit :: [] ∧ (∃ t, step (tx .eOpen 0 [] [.emit]) = .next t)
    ∧ encEvent .emit = true ∧ ({ tx .eOpen 0 [] [.emit] with dec := (rx .seek 0 1 .none []).dec } : State).enc
        = (tx .eOpen 0 [] [.emit]).enc :=
  ⟨rfl, rfl, ⟨_, rfl⟩, rfl, rfl, ⟨_, rfl⟩, rfl, rfl⟩

theorem witness_CallerAccessRespectsOwnership :
    State.reset.cfg.admissible = true
    ∧ ((rx .seek 0 4 .none []).dec.phase ≠ .idle ∧ (rx .seek 0 4 .none []).dec.out ≤ 16
      ∧ 19 < (rx .seek 0 4 .none []).dec.out + (rx .seek 0 4 .none []).dec.cap)
    ∧ ((tx .eOpen 0 [] []).enc.phase = .writing ∧ (tx .eOpen 0 [] []).enc.pay ≤ 0
      ∧ 2 < (tx .eOpen 0 [] []).enc.pay + (tx .eOpen 0 [] []).enc.n)
    ∧ (rx .seek 0 4 .none [.caller (.readPay 16)]).pending = .caller (.readPay 16) :: []
    ∧ (15 < (rx .seek 0 4 .none []).dec.out
      ∧ (rx .seek 0 4 .none []).dec.out + (rx .seek 0 4 .none []).dec.cap ≤ 20
      ∧ (rx .seek 0 4 .none [.caller (.writeOut 20 0x41)]).pending = .caller (.writeOut 20 0x41) :: [])
    ∧ ((tx .eOpen 0 [] []).enc.pay + (tx .eOpen 0 [] []).enc.n ≤ 3
      ∧ (tx .eOpen 0 [] [.caller (.writePay 3 0x41)]).pending = .caller (.writePay 3 0x41) :: []) := by decide

theorem witness_DecoderRefinesStepFunction :
    (rx .resync 0 0 .frameTooLarge [.src .fail]).cfg.admissible = true
    ∧ decoderInv (rx .resync 0 0 .frameTooLarge [.src .fail])
    ∧ (rx .resync 0 0 .frameTooLarge [.src .fail]).dec.phase ≠ .idle
    ∧ (rx .resync 0 0 .frameTooLarge [.src .fail]).pending = .src .fail :: []
    ∧ decoderInv (rx .escaped 3 4 .none [byte 0xDC]) := by
  simp [decoderInv, rx, State.reset, Config.default, Config.admissible]

/-- V-D27's stream: what the run of the one step function gives, with the rest. -/
theorem witness_DecodeCallRefinesDecodeRun :
    State.reset.cfg.admissible = true ∧ State.reset.dec.phase = .idle
    ∧ (∀ m, State.reset.cfg.lenMax = some m → 1 ≤ m)
    ∧ ∃ buf, decodeRun State.reset.cfg 1 (fun i => memRead State.reset.out (0 + i))
        [.byte 0xC0, .byte 0x41, .byte 0xC0, .byte 0xC0] = some (.ok 1, buf, [.byte 0xC0]) :=
  ⟨rfl, rfl, lengths_unbounded 1, _, rfl⟩

theorem witness_CopiedBytesDecodeTheBody :
    State.reset.cfg.admissible = true ∧ State.reset.dec.phase = .idle
    ∧ (∀ m, bounded.lenMax = some m → 4 ≤ m) ∧ [0xC0, 0xDB, 0xDC, (0xDD : Byte)].length ≤ 4 :=
  ⟨rfl, rfl, length_at_bound, by decide⟩

theorem witness_RoundTrip :
    (placed []).cfg.admissible = true ∧ (placed []).enc.phase = .idle ∧ (placed []).dec.phase = .idle
    ∧ (∀ m, (placed []).cfg.lenMax = some m → 2 ≤ m) ∧ [0xC0, (0x41 : Byte)].length ≤ 2
    ∧ memReadBytes (placed []).pay 8 [0xC0, (0x41 : Byte)].length = some [0xC0, 0x41] :=
  ⟨rfl, rfl, rfl, lengths_unbounded 2, by decide, rfl⟩

theorem witness_NoiseBeforeFrameIsIgnored :
    State.reset.cfg.admissible = true ∧ State.reset.dec.phase = .idle
    ∧ (∀ m, State.reset.cfg.lenMax = some m → 2 ≤ m) ∧ State.reset.cfg.delim ∉ [0x11, 0x22, 0xDB, 0xDC]
    ∧ [0x41, (0x42 : Byte)].length ≤ 2 :=
  ⟨rfl, rfl, lengths_unbounded 2, by decide, by decide⟩

theorem witness_BadEscapeIsRejected :
    State.reset.cfg.admissible = true ∧ State.reset.dec.phase = .idle
    ∧ (∀ m, State.reset.cfg.lenMax = some m → 1 ≤ m ∧ 1 ≤ m)
    ∧ (0xC0 : Byte) ≠ State.reset.cfg.mEnd ∧ (0xC0 : Byte) ≠ State.reset.cfg.mEsc ∧ [(0x41 : Byte)].length ≤ 1
    ∧ (∀ m, State.reset.cfg.lenMax = some m → 0 ≤ m ∧ 1 ≤ m) :=
  ⟨rfl, rfl, fun m h => (by cases h), by decide, by decide, by decide, fun m h => (by cases h)⟩

theorem witness_EmptyFrameDecodes :
    State.reset.cfg.admissible = true ∧ State.reset.dec.phase = .idle
    ∧ (∀ m, State.reset.cfg.lenMax = some m → 0 ≤ m) := ⟨rfl, rfl, lengths_unbounded 0⟩

theorem witness_CapacityBoundary :
    State.reset.cfg.admissible = true ∧ State.reset.dec.phase = .idle
    ∧ (∀ m, State.reset.cfg.lenMax = some m → 2 ≤ m)
    ∧ [0x41, (0x42 : Byte)].length = 2 ∧ 2 < [0x41, 0x42, (0xDB : Byte)].length :=
  ⟨rfl, rfl, lengths_unbounded 2, rfl, by decide⟩

theorem witness_ResultsFollowDelimiter :
    (∃ t, step (rx .copy 0 0 .none [byte 0xC0]) = .next t
      ∧ t.decResults = (rx .copy 0 0 .none [byte 0xC0]).decResults ++ [.ok 0])
    ∧ (DecResult.ok 0 ≠ .err .transportFailure)
    ∧ ∃ t, step (rx .resync 0 0 .frameTooLarge [byte 0xC0]) = .next t
      ∧ t.decResults = (rx .resync 0 0 .frameTooLarge [byte 0xC0]).decResults ++ [.err .frameTooLarge] :=
  ⟨⟨_, rfl, rfl⟩, by decide, _, rfl, rfl⟩

theorem witness_NoRawReservedByteStored :
    (rx .escaped 0 1 .none [byte 0xDC]).pending = .src (.byte 0xDC) :: []
    ∧ (∃ t, step (rx .escaped 0 1 .none [byte 0xDC]) = .next t ∧ memRead t.out 16 = some 0xC0)
    ∧ memRead (rx .escaped 0 1 .none [byte 0xDC]).out 16 ≠ some 0xC0
    ∧ ∃ t, step (rx .copy 0 1 .none [byte 0xDC]) = .next t ∧ memRead t.out 16 = some 0xDC :=
  ⟨rfl, ⟨_, rfl, rfl⟩, by decide, _, rfl, rfl⟩

theorem witness_CallsDependOnTheirEventsOnly :
    (placed []).cfg = State.reset.cfg ∧ (placed []).dec.phase = .idle ∧ State.reset.dec.phase = .idle
    ∧ ∃ t, steps (1 + 2) { State.reset with
        pending := .decode 0 0 :: (srcEvents [.byte 0xC0, .byte 0xC0] ++ []) } = .next t :=
  ⟨rfl, rfl, rfl, _, rfl⟩

/-- The shortest call (two delimiters), and one with three (V-D10). -/
theorem witness_DelimitersConsumedByACall :
    State.reset.dec.phase = .idle
    ∧ (∃ t, steps (1 + 2) { State.reset with
        pending := .decode 0 0 :: (srcBytes [0xC0, 0xC0] ++ []) } = .next t ∧ t.dec.phase = .idle)
    ∧ ∃ t, steps (1 + 4) { State.reset with
        pending := .decode 4 0 :: (srcBytes [0xC0, 0xDB, 0xC0, 0xC0] ++ []) } = .next t ∧ t.dec.phase = .idle :=
  ⟨rfl, ⟨_, rfl, rfl⟩, _, rfl, rfl⟩

theorem witness_MisalignmentHazards :
    State.reset.cfg.admissible = true ∧ State.reset.dec.phase = .idle
    ∧ (∀ m, State.reset.cfg.lenMax = some m → 1 ≤ m) ∧ [(0x41 : Byte)].length ≤ 1 :=
  ⟨rfl, rfl, lengths_unbounded 1, by decide⟩

theorem witness_CallEndsWithEnoughDelimiters :
    State.reset.cfg.admissible = true ∧ State.reset.dec.phase = .idle
    ∧ (∀ m, State.reset.cfg.lenMax = some m → 4 ≤ m)
    ∧ 3 ≤ [0xC0, 0xDB, 0xC0, 0x41, 0xC0].count State.reset.cfg.delim :=
  ⟨rfl, rfl, lengths_unbounded 4, by decide⟩

end Sys2Proof.Tests
end

/-! # The two units share no state (10_state.md R22)

A step on a decoder event commutes with exchanging everything but the decoder's part of the state, and a step on an
encoder event with exchanging everything but the encoder's part. Exchanging for another state's part says that the step
does not depend on the other unit; exchanging for the state's own part says that the step writes nothing of it. -/

namespace Sys2Proof.Machine

variable {s t u : State} {e : Event} {rest rest' : List Event}

/-- The parameters and the decoder's part of `s`, with everything else from `u`. -/
def State.withEncoderOf (s u : State) : State :=
  { s with enc := u.enc, pay := u.pay, tx := u.tx, encResults := u.encResults, pending := u.pending }

/-- The parameters and the encoder's part of `s`, with everything else from `u`. -/
def State.withDecoderOf (s u : State) : State :=
  { s with dec := u.dec, out := u.out, decResults := u.decResults, pending := u.pending }

theorem State.withEncoderOf_eq (hcfg : u.cfg = s.cfg) (hdec : u.dec = s.dec) (hout : u.out = s.out)
    (hres : u.decResults = s.decResults) : s.withEncoderOf u = u := by
  simp only [State.withEncoderOf, ← hcfg, ← hdec, ← hout, ← hres]

theorem State.withDecoderOf_eq (hcfg : u.cfg = s.cfg) (henc : u.enc = s.enc) (hpay : u.pay = s.pay)
    (htx : u.tx = s.tx) (hres : u.encResults = s.encResults) : s.withDecoderOf u = u := by
  simp only [State.withDecoderOf, ← hcfg, ← henc, ← hpay, ← htx, ← hres]

/-- Two states with the same first event: what holds of the one's first event holds of the other's. -/
theorem firstEvent_transfer {P : Event → Prop} (he : P e) (hp : s.pending = e :: rest)
    (hu : u.pending = e :: rest') {e₀ : Event} {rest₀ : List Event} (h₀ : s.pending = e₀ :: rest₀) :
    P e₀ ∧ u.pending = e₀ :: rest' := by
  obtain ⟨rfl, -⟩ := List.cons.inj (hp.symm.trans h₀)
  exact ⟨he, hu⟩

/-- A step on a decoder event, with the rest of the state exchanged for `u`'s: the same step, the rest still `u`'s. -/
theorem step_withEncoderOf (he : decEvent e = true) (hp : s.pending = e :: rest) (hu : u.pending = e :: rest')
    (h : step s = .next t) : step (s.withEncoderOf u) = .next (t.withEncoderOf (u.withPending rest')) := by
  obtain ⟨ha, hc⟩ := step_cases h
  have hev {e₀ rest₀} := firstEvent_transfer (P := (decEvent · = true)) (e₀ := e₀) (rest₀ := rest₀) he hp hu
  cases hc with
  | quiet hq => exact absurd (hp.symm.trans hq) (List.cons_ne_nil _ _)
  | decode _ m o hq hph hl => exact step_of_decode ha (hev hq).2 hph ((Config.lengthOk_iff _ _).1 hl)
  | srcFail _ hq hph => exact step_of_srcFail ha (hev hq).2 hph
  | seekEnd _ hq hph => exact step_of_seekEnd ha (hev hq).2 hph
  | seekSkip _ b hq hb hph => exact step_of_seekSkip ha (hev hq).2 hb hph
  | copyEnd _ hq hph => exact step_of_copyEnd ha (hev hq).2 hph
  | copyOvf _ b hq hb hph hl => exact step_of_copyOvf ha (hev hq).2 hb hph hl
  | copyEsc _ hq hph hl => exact step_of_copyEsc ha (hev hq).2 hph hl
  | copyLit _ b hq hb hne hph hl => exact step_of_copyLit ha (hev hq).2 hb hne hph hl
  | escapedMend _ hq hph hl => exact step_of_escapedMend ha (hev hq).2 hph hl
  | escapedMesc _ hq hph hl => exact step_of_escapedMesc ha (hev hq).2 hph hl
  | escapedBad _ b hq hd hne hph => exact step_of_escapedBad ha (hev hq).2 hd hne hph
  | resyncEnd _ err hq hph herr => exact step_of_resyncEnd ha (hev hq).2 hph herr
  | resyncSkip _ b hq hb hph => exact step_of_resyncSkip ha (hev hq).2 hb hph
  | _ => cases (hev ‹s.pending = _ :: _›).1

/-- A step on an encoder event, with the rest of the state exchanged for `u`'s: the same step, the rest still `u`'s. -/
theorem step_withDecoderOf (he : encEvent e = true) (hp : s.pending = e :: rest) (hu : u.pending = e :: rest')
    (h : step s = .next t) : step (s.withDecoderOf u) = .next (t.withDecoderOf (u.withPending rest')) := by
  obtain ⟨ha, hc⟩ := step_cases h
  have hev {e₀ rest₀} := firstEvent_transfer (P := (encEvent · = true)) (e₀ := e₀) (rest₀ := rest₀) he hp hu
  cases hc with
  | quiet hq => exact absurd (hp.symm.trans hq) (List.cons_ne_nil _ _)
  | encode _ a n p hq hph hl hr => exact step_of_encode ha (hev hq).2 hph ((Config.lengthOk_iff _ _).1 hl) hr
  | txOpen _ hq hph hsub => exact step_of_txOpen ha (hev hq).2 hph hsub
  | txByte _ b hq hph hsub hi hr => exact step_of_txByte ha (hev hq).2 hph hsub hi hr
  | txClose _ hq hph hsub hi => exact step_of_txClose ha (hev hq).2 hph hsub hi
  | sinkOk _ f hq hw => exact step_of_sinkOk ha (hev hq).2 hw
  | sinkFail _ k f hq hw => exact step_of_sinkFail ha (hev hq).2 hw
  | _ => cases (hev ‹s.pending = _ :: _›).1

/-- A decoder event leaves the encoder's part as it is: the step commutes with exchanging it for itself. -/
theorem step_decEvent_frame (he : decEvent e = true) (hp : s.pending = e :: rest) (h : step s = .next t) :
    t = t.withEncoderOf (s.withPending rest) :=
  Host.Outcome.next.inj (h.symm.trans (step_withEncoderOf he hp hp h))

/-- An encoder event leaves the decoder's part as it is: the step commutes with exchanging it for itself. -/
theorem step_encEvent_frame (he : encEvent e = true) (hp : s.pending = e :: rest) (h : step s = .next t) :
    t = t.withDecoderOf (s.withPending rest) :=
  Host.Outcome.next.inj (h.symm.trans (step_withDecoderOf he hp hp h))

/-- Settles O45: each unit's step commutes with exchanging the other unit's part of the state. -/
theorem unitsShareNoState : Obligations.UnitsShareNoState := by
  intro s s' t e rest rest' hp hp' hcfg h
  refine ⟨fun he => ⟨?_, fun hdec hout hres => ?_⟩, fun he => ⟨?_, fun henc hpay htx hres => ?_⟩⟩
  · rw [step_decEvent_frame he hp h]
    exact ⟨rfl, rfl, rfl, rfl⟩
  · have hs' := step_withEncoderOf he hp hp' h
    rw [State.withEncoderOf_eq hcfg hdec hout hres] at hs'
    exact ⟨_, hs', rfl, rfl, rfl⟩
  · rw [step_encEvent_frame he hp h]
    exact ⟨rfl, rfl, rfl⟩
  · have hs' := step_withDecoderOf he hp hp' h
    rw [State.withDecoderOf_eq hcfg henc hpay htx hres] at hs'
    exact ⟨_, hs', rfl, rfl, rfl, rfl⟩

end Sys2Proof.Machine

/-! # The caller's accesses during a call (20_memory.md R69)

A step on a caller's access is the access itself, with the event taken off. A read of `PAY` is always done; every other
access is refused or done by one question, whether the unit's call owns the address, which is answered here both ways. -/

namespace Sys2Proof.Machine

variable {s : State} {rest : List Event}

/-- The addresses a decode call does not own. -/
theorem not_ownedByDec_iff (d : Dec) (a : Nat) :
    ¬ ownedByDec d a = true ↔ d.phase = .idle ∨ a < d.out ∨ d.out + d.cap ≤ a := by
  rw [ownedByDec_iff, not_and_or, not_and_or, not_not, not_le, not_lt]

/-- The addresses an encode call does not own. -/
theorem not_ownedByEnc_iff (e : Enc) (a : Nat) :
    ¬ ownedByEnc e a = true ↔ e.phase = .idle ∨ a < e.pay ∨ e.pay + e.n ≤ a := by
  have hidle : ¬ e.phase = .writing ↔ e.phase = .idle := by cases e.phase <;> decide
  rw [ownedByEnc_iff, not_and_or, not_and_or, hidle, not_le, not_lt]

/-- A step on an access of the caller does that access. -/
theorem step_of_caller {c : CallerAccess} (ha : s.cfg.admissible = true) (hp : s.pending = .caller c :: rest) :
    step s = callerAccess c (s.withPending rest) :=
  step_event ha hp

/-- Settles O46: an access of an owned address takes the refusing branch of `callerAccess`, any other the branch that does
it; a read of `PAY` has no refusing branch. -/
theorem callerAccessRespectsOwnership : Obligations.CallerAccessRespectsOwnership := by
  intro s a v rest ha
  refine ⟨fun hph hlo hhi => ?ownedOut, fun hph hlo hhi hp => ?ownedPay, fun hp => step_of_caller ha hp,
    fun hfree => ?freeOut, fun hfree hp => ?freePay⟩
  case ownedOut =>
    have ho := (ownedByDec_iff s.dec a).2 ⟨hph, hlo, hhi⟩
    exact ⟨fun hp => (step_of_caller ha hp).trans (if_pos ho), fun hp => (step_of_caller ha hp).trans (if_pos ho)⟩
  case ownedPay =>
    have ho := (ownedByEnc_iff s.enc a).2 ⟨hph, hlo, hhi⟩
    exact (step_of_caller ha hp).trans (if_pos ho)
  case freeOut =>
    have ho := (not_ownedByDec_iff s.dec a).2 hfree
    exact ⟨fun hp => (step_of_caller ha hp).trans (if_neg ho), fun hp => (step_of_caller ha hp).trans (if_neg ho)⟩
  case freePay =>
    have ho := (not_ownedByEnc_iff s.enc a).2 hfree
    exact (step_of_caller ha hp).trans (if_neg ho)

end Sys2Proof.Machine

/-! # The symbol tables read backwards (30_encoding.md R84 to R88, R96)

Every row's symbol is the row's match value or, in a catch-all row, the byte itself. So the operation read from a byte has
that byte as its symbol, and an operation of the context with that symbol is the one the tables answer: the rows above its
own match other values, by the distinct parameters (R8) or by the catch-all row's operand condition. -/

namespace Sys2Proof

variable {c : Config} {x : Context} {b : Byte} {i : Instr}

/-- The symbol of what is read is the byte it was read from. -/
@[simp] theorem encode_decodeSymbol (c : Config) (x : Context) (b : Byte) : encode c (decodeSymbol c x b) = [b] := by
  cases x <;> simp only [decodeSymbol] <;> repeat' split
  all_goals simp_all only [encode]

/-- An operation of the context with the symbol `b` is the one that `b` selects: its row is reached. -/
theorem decodeSymbol_eq_of_encode (ha : c.admissible = true) (hx : i.inContext x = true)
    (hw : i.wellFormed c = true) (he : encode c i = [b]) : decodeSymbol c x b = i := by
  obtain ⟨hde, hmm, -⟩ := c.admissible_iff.1 ha
  cases i with
  | srcFail | txOpen | txClose | encode | decode => cases hx
  | seekEnd | resyncEnd | escapedMend | txEscd =>
    obtain rfl := eq_of_beq hx
    obtain rfl := List.singleton_inj.1 he
    exact if_pos rfl
  | copyEnd =>
    obtain rfl := List.singleton_inj.1 he
    obtain rfl | rfl : x = .rxCopy true ∨ x = .rxCopy false := by simpa [Instr.inContext] using hx
    all_goals exact if_pos rfl
  | copyEsc | txEsce =>
    obtain rfl := eq_of_beq hx
    obtain rfl := List.singleton_inj.1 he
    simp [decodeSymbol, hde.symm]
  | escapedMesc =>
    obtain rfl := eq_of_beq hx
    obtain rfl := List.singleton_inj.1 he
    simp [decodeSymbol, hmm.symm]
  | seekSkip | resyncSkip | copyOvf | copyLit | escapedBad | txLit =>
    obtain rfl := eq_of_beq hx
    obtain rfl := List.singleton_inj.1 he
    simp_all [decodeSymbol, Instr.wellFormed]

/-- Settles O3: the operation that `decodeSymbol` answers. Its row stands in the context and has the byte as its symbol,
and any other operation of the context with that symbol is again what `decodeSymbol` answers. -/
theorem exactlyOneRowPerSymbol : Obligations.ExactlyOneRowPerSymbol := fun c x b ha =>
  ⟨decodeSymbol c x b,
    ⟨decodeSymbol_inContext c x b, decodeSymbol_wellFormed c x b, encode_decodeSymbol c x b, rfl⟩,
    fun _ hx hw he => (decodeSymbol_eq_of_encode ha hx hw he).symm⟩

end Sys2Proof

/-! # The bytes of a frame (40_encoder.md R112, R125, R126)

A frame's body is the escapes of the payload bytes, one after another, and an escape is a literal that is neither
delimiter nor escape byte, or one of the two pairs. What is asked of a body is therefore asked of these three parts. -/

namespace Sys2Proof.Machine

variable {c : Config} {l l₁ l₂ : List Byte}

/-- The body is the payload bytes' escapes in index order. -/
theorem frameBody_eq_flatMap (c : Config) (p : List Byte) : frameBody c p = p.flatMap (escByte c) := by
  induction p with
  | nil => rfl
  | cons b p ih => rw [frameBody, ih, List.flatMap_cons]

/-- A frame is a delimiter, the payload bytes' escapes in index order, and a delimiter. -/
theorem frame_eq_flatMap (c : Config) (p : List Byte) : frame c p = [c.delim] ++ p.flatMap (escByte c) ++ [c.delim] := by
  rw [frame, frameBody_eq_flatMap]

/-- A frame without its first and last byte is its body. -/
theorem frame_drop_dropLast (c : Config) (p : List Byte) : ((frame c p).drop 1).dropLast = frameBody c p :=
  List.dropLast_concat

/-- The three kinds of parts a body is made of. -/
theorem escByte_cases (c : Config) (b : Byte) :
    (escByte c b = [b] ∧ b ≠ c.delim ∧ b ≠ c.esc) ∨ escByte c b = [c.esc, c.mEnd] ∨ escByte c b = [c.esc, c.mEsc] := by
  unfold escByte
  split
  · exact .inr (.inl rfl)
  · next hd =>
    split
    · exact .inr (.inr rfl)
    · next he => exact .inl ⟨rfl, hd, he⟩

/-- No part of a body has the delimiter. -/
theorem delim_notMem_escByte (ha : c.admissible = true) (b : Byte) : c.delim ∉ escByte c b := by
  obtain ⟨hde, -, hend, hesc, -, -⟩ := c.admissible_iff.1 ha
  obtain ⟨h, hd, -⟩ | h | h := escByte_cases c b
  · simpa [h] using hd.symm
  · simp [h, hde, hend.symm]
  · simp [h, hde, hesc.symm]

theorem delim_notMem_frameBody (ha : c.admissible = true) (p : List Byte) : c.delim ∉ frameBody c p := by
  rw [frameBody_eq_flatMap, List.mem_flatMap]
  rintro ⟨b, -, hb⟩
  exact delim_notMem_escByte ha b hb

/-- Wherever the escape byte stands in `l`, a marker follows it in `l`. -/
def EscPaired (c : Config) (l : List Byte) : Prop :=
  ∀ before after, l = before ++ c.esc :: after →
    ∃ after', after = c.mEnd :: after' ∨ after = c.mEsc :: after'

theorem escPaired_of_notMem (h : c.esc ∉ l) : EscPaired c l := by
  rintro before after rfl
  exact absurd (List.mem_append_right before List.mem_cons_self) h

theorem escPaired_pair {m : Byte} (hm : m = c.mEnd ∨ m = c.mEsc) (hne : c.esc ≠ m) : EscPaired c [c.esc, m] := by
  intro before after h
  cases before with
  | nil =>
    obtain rfl : [m] = after := (List.cons.inj h).2
    exact ⟨[], hm.imp (congrArg (· :: [])) (congrArg (· :: []))⟩
  | cons x before => exact escPaired_of_notMem (by simpa using hne) before after (List.cons.inj h).2

/-- Pairs stay whole when lists are joined: each list's escape bytes have their markers within that list. -/
theorem EscPaired.append (h₁ : EscPaired c l₁) (h₂ : EscPaired c l₂) : EscPaired c (l₁ ++ l₂) := by
  intro before after h
  obtain ⟨pre, -, hl₂⟩ | ⟨mid, hl₁, hmid⟩ := List.append_eq_append_iff.1 h
  · exact h₂ pre after hl₂
  · cases mid with
    | nil => exact h₂ [] after hmid.symm
    | cons x mid =>
      obtain ⟨rfl, rfl⟩ := List.cons.inj hmid
      obtain ⟨after', hafter⟩ := h₁ before mid hl₁
      exact ⟨after' ++ l₂, hafter.imp (congrArg (· ++ l₂)) (congrArg (· ++ l₂))⟩

theorem escPaired_escByte (ha : c.admissible = true) (b : Byte) : EscPaired c (escByte c b) := by
  obtain ⟨-, -, -, -, hend, hesc⟩ := c.admissible_iff.1 ha
  obtain ⟨h, -, he⟩ | h | h := escByte_cases c b <;> rw [h]
  · exact escPaired_of_notMem (by simpa using he.symm)
  · exact escPaired_pair (.inl rfl) hend.symm
  · exact escPaired_pair (.inr rfl) hesc.symm

theorem escPaired_frameBody (ha : c.admissible = true) (p : List Byte) : EscPaired c (frameBody c p) := by
  induction p with
  | nil => exact escPaired_of_notMem List.not_mem_nil
  | cons b p ih => exact (escPaired_escByte ha b).append ih

theorem escPaired_frame (ha : c.admissible = true) (p : List Byte) : EscPaired c (frame c p) := by
  obtain ⟨hde, -⟩ := c.admissible_iff.1 ha
  have hdelim : EscPaired c [c.delim] := escPaired_of_notMem (by simpa using hde.symm)
  exact (hdelim.append (escPaired_frameBody ha p)).append hdelim

/-- Settles O25: `escByte` is the statement's `Esc(b)`. -/
theorem frameIsEscapedPayload : Obligations.FrameIsEscapedPayload :=
  frame_eq_flatMap

/-- Settles O34: what stands between the two delimiters is the body, and no part of the body has a delimiter. -/
theorem noRawDelimiterInTransit : Obligations.NoRawDelimiterInTransit := by
  intro c p ha
  rw [frame_drop_dropLast]
  exact delim_notMem_frameBody ha p

/-- Settles O35: the parts are the payload bytes' escapes, and the frame is joined from lists that keep their pairs
whole. -/
theorem escapeOnlyStartsPairs : Obligations.EscapeOnlyStartsPairs := by
  intro c p ha
  refine ⟨⟨p.map (escByte c), frame_eq_flatMap c p, fun e he => ?_⟩, escPaired_frame ha p⟩
  obtain ⟨b, -, rfl⟩ := List.mem_map.1 he
  exact (escByte_cases c b).imp_left fun hlit => ⟨b, hlit⟩

end Sys2Proof.Machine

/-! # How an encode call begins and ends (40_encoder.md R110, R120 to R122)

The command is accepted for every placed payload the port can carry. The call's result comes in the step that takes the
sink's answer: every other step leaves the encoder's results as they are, a reset's included. -/

namespace Sys2Proof.Machine

variable {s t : State}

/-- An encode command to an idle encoder, for a placed payload that the port can carry. -/
theorem exec_encode_of_placed {a n : Nat} {p : List Byte} (hph : s.enc.phase = .idle)
    (hl : ∀ m, s.cfg.lenMax = some m → n ≤ m) (hr : memReadBytes s.pay a n = some p) :
    exec (.encode a n) s = .next (s.withEnc
      { phase := .writing, n := n, idx := 0, pay := a, write := some (frame s.cfg p), sub := .eOpen, emitted := [] }) := by
  rw [← Config.lengthOk_iff] at hl
  simp [exec, execEncode, hph, hl, hr]

@[simp] theorem abandonWrite_encResults (k : Nat) (s : State) : (abandonWrite k s).encResults = s.encResults := by
  obtain ⟨-, h⟩ | ⟨f, -, h⟩ := abandonWrite_cases k s <;> rw [h]
  exact State.sendTx_encResults s _

/-- What a step delivers on the encoder's result port: nothing, or the result that the sink's answer is. -/
theorem StepCase.encResults_cases (h : StepCase s t) :
    t.encResults = s.encResults
      ∨ (∃ rest, s.pending = .sink .ok :: rest ∧ t.encResults = s.encResults ++ [.ok])
      ∨ (∃ k rest, s.pending = .sink (.fail k) :: rest ∧ t.encResults = s.encResults ++ [.transportFailure]) := by
  cases h with
  | sinkOk rest f hp => exact .inr (.inl ⟨rest, hp, rfl⟩)
  | sinkFail rest k f hp => exact .inr (.inr ⟨k, rest, hp, rfl⟩)
  | reset rest k => exact .inl (abandonWrite_encResults k (s.withPending rest))
  | _ => exact .inl rfl

/-- While a write is outstanding it is the frame of the payload in `PAY` (R33). -/
theorem encoderInv.write_eq_frame {f : List Byte} (h : encoderInv s) (hw : s.enc.write = some f) :
    ∃ p, memReadBytes s.pay s.enc.pay s.enc.n = some p ∧ f = frame s.cfg p := by
  obtain ⟨-, hidle, hwriting⟩ := h
  cases hph : s.enc.phase with
  | idle => cases hw.symm.trans (hidle hph)
  | writing =>
    obtain ⟨p, hp, hf, -⟩ := hwriting hph
    exact ⟨p, hp, Option.some.inj (hw.symm.trans hf)⟩

/-- Settles O28: the step of R120, and the invariant's write. -/
theorem sinkOkEndsCall : Obligations.SinkOkEndsCall := fun _ _ _ ha hp hw =>
  ⟨step_of_sinkOk ha hp hw, fun hinv => hinv.write_eq_frame hw⟩

/-- Settles O30: the command is accepted whatever the bytes are, and of the step's effects only the sink's answers
deliver a result. -/
theorem encodeResultsComeFromSink : Obligations.EncodeResultsComeFromSink := by
  refine ⟨fun s a p hph hl hr => ⟨_, exec_encode_of_placed hph hl hr⟩, fun s t h hne => ?_⟩
  obtain ⟨-, hcase⟩ := step_cases h
  exact hcase.encResults_cases.resolve_left hne

end Sys2Proof.Machine

/-! # What the decoder's operations do (41_decoder.md R140 to R154)

Each operation's meaning asks for its row's place, the phase and where the table has one the condition on the length; in
that place it is the branch that the rule writes out. -/

namespace Sys2Proof.Machine

variable {s : State} {v : Byte}

/-- The append in room below the capacity. -/
theorem appendOut_of_room (ph : DPhase) (hl : s.dec.len < s.dec.cap) :
    appendOut v ph s = .next ((s.withOut (memWrite s.out (s.dec.out + s.dec.len) v)).withDec
      { s.dec with len := s.dec.len + 1, phase := ph }) :=
  if_pos hl

/-- Settles O11: the unit is idle and the port can carry the capacity. -/
theorem decodeCommandStartsCall : Obligations.DecodeCommandStartsCall := fun s maxLen _ hph hlen =>
  (if_pos hph).trans (if_pos ((s.cfg.lengthOk_iff maxLen).2 hlen))

/-- Settles O12. -/
theorem seekSymbols : Obligations.SeekSymbols := fun _ _ hph => ⟨if_pos hph, if_pos hph⟩

/-- Settles O13. -/
theorem closingDelimiterReturnsLength : Obligations.ClosingDelimiterReturnsLength := fun _ hph => if_pos hph

/-- Settles O15. -/
theorem escapeByteEntersEscaped : Obligations.EscapeByteEntersEscaped := fun _ hph hl => if_pos ⟨hph, hl⟩

/-- Settles O16: the append that keeps the phase `COPY`. -/
theorem literalIsAppended : Obligations.LiteralIsAppended := by
  intro s b hph hl
  have happend : exec (.copyLit b) s = appendOut b .copy s := if_pos ⟨hph, hl⟩
  rw [happend, appendOut_of_room .copy hl, ← hph]
  rfl

/-- Settles O17: both markers append, each its reserved byte. -/
theorem markersAppendReservedBytes : Obligations.MarkersAppendReservedBytes := fun _ hph hl =>
  ⟨(if_pos hph).trans (appendOut_of_room .copy hl), (if_pos hph).trans (appendOut_of_room .copy hl)⟩

/-- In `ESCAPED` a byte that is no marker reaches the table's last row. -/
theorem decodeSymbol_escapedBad {c : Config} {b : Byte} (h₁ : b ≠ c.mEnd) (h₂ : b ≠ c.mEsc) :
    decodeSymbol c .rxEscaped b = .escapedBad b :=
  (if_neg h₁).trans (if_neg h₂)

/-- Settles O18: the markers are neither the delimiter nor the escape byte (R8), so both of these reach the last row. -/
theorem badEscapeAbortsFrame : Obligations.BadEscapeAbortsFrame := by
  intro s b hph
  refine ⟨if_pos hph, fun ha => ?_⟩
  obtain ⟨-, -, hendD, hescD, hendE, hescE⟩ := s.cfg.admissible_iff.1 ha
  exact ⟨congrArg (Decoded.ok · []) (decodeSymbol_escapedBad hendD.symm hescD.symm),
    congrArg (Decoded.ok · []) (decodeSymbol_escapedBad hendE.symm hescE.symm)⟩

end Sys2Proof.Machine

/-! # What a step leaves the decoder, and when it delivers a result (41_decoder.md R176, R178, R185)

Two readings of the one inversion of a step: the events that are no answer, command or reset keep the decoder, and of
the others three operations deliver a result. -/

namespace Sys2Proof.Machine

variable {s t : State}

/-- A step whose event is neither a source answer nor a decode command nor a reset keeps the decoder's registers, its
results and every byte it owns: only an access of the caller writes `OUT`, outside what the call owns. -/
theorem StepCase.keeps_decoder (h : StepCase s t) (hsrc : ∀ a rest, s.pending ≠ .src a :: rest)
    (hdec : ∀ m o rest, s.pending ≠ .decode m o :: rest) (hreset : ∀ k rest, s.pending ≠ .reset k :: rest) :
    t.dec = s.dec ∧ t.decResults = s.decResults
      ∧ ∀ a, ownedByDec s.dec a = true → memRead t.out a = memRead s.out a := by
  cases h with
  | quiet | encode | txOpen | txByte | txClose | sinkOk | sinkFail | callerRead | callerWritePay =>
    exact ⟨rfl, rfl, fun _ _ => rfl⟩
  | callerWriteOut rest x v _ hx =>
    refine ⟨rfl, rfl, fun a ha => memRead_memWrite_other s.out v ?_⟩
    rintro rfl
    exact Bool.false_ne_true (hx.symm.trans ha)
  | decode rest m o hp => exact absurd hp (hdec m o rest)
  | reset rest k hp => exact absurd hp (hreset k rest)
  | _ => exact absurd ‹s.pending = _ :: _› (hsrc _ _)

/-- Settles O10: the inversion of the step, and for no event at all the step's own equation. -/
theorem unansweredReadKeepsDecoder : Obligations.UnansweredReadKeepsDecoder := by
  intro s t ha h hsrc hdec hreset
  obtain ⟨hregs, hres, hout⟩ := (step_cases h).2.keeps_decoder hsrc hdec hreset
  exact ⟨hregs, hres, hout, fun hp => Host.Outcome.next.inj (h.symm.trans (step_quiet ha hp))⟩

@[simp] theorem abandonWrite_decResults (k : Nat) (s : State) : (abandonWrite k s).decResults = s.decResults := by
  obtain ⟨-, h⟩ | ⟨f, -, h⟩ := abandonWrite_cases k s <;> rw [h]
  exact State.sendTx_decResults s _

/-- What a step delivers on the decoder's result port: nothing, or the result of one of the three operations that end a
call (R144, R156, R160). -/
theorem StepCase.decResults_cases (h : StepCase s t) :
    t.decResults = s.decResults
      ∨ (∃ rest, s.pending = .src (.byte s.cfg.delim) :: rest ∧ s.dec.phase = .copy ∧ t.dec.phase = .idle
          ∧ t.decResults = s.decResults ++ [.ok s.dec.len])
      ∨ (∃ rest e, s.pending = .src (.byte s.cfg.delim) :: rest ∧ s.dec.phase = .resync ∧ t.dec.phase = .idle
          ∧ t.decResults = s.decResults ++ [.err e])
      ∨ t.decResults = s.decResults ++ [.err .transportFailure] := by
  cases h with
  | copyEnd rest hp hph => exact .inr (.inl ⟨rest, hp, hph, rfl, rfl⟩)
  | resyncEnd rest e hp hph => exact .inr (.inr (.inl ⟨rest, e, hp, hph, rfl, rfl⟩))
  | srcFail => exact .inr (.inr (.inr rfl))
  | reset rest k => exact .inl (abandonWrite_decResults k (s.withPending rest))
  | _ => exact .inl rfl

/-- Settles O55: of the operations that deliver a result, the two that take a byte take a delimiter. -/
theorem resultsFollowDelimiter : Obligations.ResultsFollowDelimiter := by
  intro s t r h hr hne
  have hresult {r'} (h' : t.decResults = s.decResults ++ [r']) : r = r' :=
    List.singleton_inj.1 (List.append_cancel_left (hr.symm.trans h'))
  obtain hnone | ⟨rest, hp, hph, hidle, hok⟩ | ⟨rest, e, hp, hph, hidle, herr⟩ | hfail :=
    (step_cases h).2.decResults_cases
  · exact absurd (hr.symm.trans hnone) (by simp)
  · obtain rfl := hresult hok
    exact ⟨⟨rest, hp⟩, hidle, fun _ _ => hph, fun _ hr => nomatch hr⟩
  · obtain rfl := hresult herr
    exact ⟨⟨rest, hp⟩, hidle, fun _ hr => (nomatch hr), fun _ _ => hph⟩
  · exact absurd (hresult hfail) hne

end Sys2Proof.Machine

/-! # Runs over events, whatever comes after them

A run is stated with the events it takes and for every list of later events, so that runs compose; a statement about a
list of events is then a composition of the rules of its events. -/

namespace Sys2Proof.Machine

variable {s t u : State} {e : Event} {es fs : List Event} {as bs : List Byte}

/-- The events `es` take `s` to `t`, one step each, and leave whatever is pending after them. -/
def Runs (es : List Event) (s t : State) : Prop :=
  ∀ rest, steps es.length (s.withPending (es ++ rest)) = .next (t.withPending rest)

/-- The bytes `bs` from the source take `s` to `t`. -/
def Receives (bs : List Byte) (s t : State) : Prop := Runs (srcBytes bs) s t

theorem Runs.nil : Runs [] s s := fun _ => rfl

theorem Runs.of_step (h : ∀ rest, step (s.withPending (e :: rest)) = .next (t.withPending rest)) : Runs [e] s t :=
  fun rest => steps_succ 0 (h rest)

theorem Runs.append (h₁ : Runs es s t) (h₂ : Runs fs t u) : Runs (es ++ fs) s u := by
  intro rest
  rw [List.length_append, List.append_assoc]
  exact (steps_add _ _ _ (h₁ _)).trans (h₂ rest)

theorem Runs.cons (h₁ : Runs [e] s t) (h₂ : Runs es t u) : Runs (e :: es) s u := h₁.append h₂

theorem Receives.append (h₁ : Receives as s t) (h₂ : Receives bs t u) : Receives (as ++ bs) s u := by
  unfold Receives
  rw [srcBytes_append]
  exact Runs.append h₁ h₂

/-- A run over some events and then bytes from the source, as the statements count its steps. -/
theorem Runs.steps_srcBytes {k : Nat} (h : Runs (es ++ srcBytes bs) s t) (hk : es.length = k) (rest : List Event) :
    steps (k + bs.length) (s.withPending (es ++ (srcBytes bs ++ rest))) = .next (t.withPending rest) := by
  have := h rest
  rwa [List.length_append, srcBytes_length, hk, List.append_assoc] at this

/-- A decode call right after its command: it seeks its start delimiter. -/
abbrev State.seeking (s : State) (m o : Nat) : State :=
  s.withDec { phase := .seek, len := 0, cap := m, status := .none, out := o }

/-- A decode call right after its start delimiter: in `COPY` with nothing copied. -/
abbrev State.copying (s : State) (m o : Nat) : State :=
  s.withDec { phase := .copy, len := 0, cap := m, status := .none, out := o }

/-- The decoder after the append of one byte, back in `COPY`. -/
def State.appendByte (s : State) (b : Byte) : State :=
  (s.withOut (memWrite s.out (s.dec.out + s.dec.len) b)).withDec { s.dec with len := s.dec.len + 1, phase := .copy }

/-! The rules of Laws/Run.lean as runs. -/

section Rules

variable {b : Byte} (ha : s.cfg.admissible = true)
include ha

theorem runs_decode {m o : Nat} (hph : s.dec.phase = .idle) (hl : ∀ k, s.cfg.lenMax = some k → m ≤ k) :
    Runs [.decode m o] s (s.seeking m o) :=
  .of_step fun r => step_of_decode (s := s.withPending (_ :: r)) ha rfl hph hl

theorem receives_seekEnd (hph : s.dec.phase = .seek) :
    Receives [s.cfg.delim] s (s.withDec { s.dec with phase := .copy }) :=
  Runs.of_step fun r => step_of_seekEnd (s := s.withPending (_ :: r)) ha rfl hph

theorem receives_seekSkip (hb : b ≠ s.cfg.delim) (hph : s.dec.phase = .seek) : Receives [b] s s :=
  Runs.of_step fun r => step_of_seekSkip (s := s.withPending (_ :: r)) ha rfl hb hph

theorem receives_copyEnd (hph : s.dec.phase = .copy) : Receives [s.cfg.delim] s (finishDec (.ok s.dec.len) s) :=
  Runs.of_step fun r => step_of_copyEnd (s := s.withPending (_ :: r)) (rest := r) ha rfl hph

theorem receives_copyOvf (hb : b ≠ s.cfg.delim) (hph : s.dec.phase = .copy) (hl : s.dec.len = s.dec.cap) :
    Receives [b] s (raiseDec .frameTooLarge s) :=
  Runs.of_step fun r => step_of_copyOvf (s := s.withPending (_ :: r)) ha rfl hb hph hl

theorem receives_copyEsc (hph : s.dec.phase = .copy) (hl : s.dec.len < s.dec.cap) :
    Receives [s.cfg.esc] s (s.withDec { s.dec with phase := .escaped }) :=
  Runs.of_step fun r => step_of_copyEsc (s := s.withPending (_ :: r)) ha rfl hph hl

theorem receives_copyLit (hb : b ≠ s.cfg.delim) (he : b ≠ s.cfg.esc) (hph : s.dec.phase = .copy)
    (hl : s.dec.len < s.dec.cap) : Receives [b] s (s.appendByte b) :=
  Runs.of_step fun r => step_of_copyLit (s := s.withPending (_ :: r)) ha rfl hb he hph hl

theorem receives_escapedMend (hph : s.dec.phase = .escaped) (hl : s.dec.len < s.dec.cap) :
    Receives [s.cfg.mEnd] s (s.appendByte s.cfg.delim) :=
  Runs.of_step fun r => step_of_escapedMend (s := s.withPending (_ :: r)) ha rfl hph hl

theorem receives_escapedMesc (hph : s.dec.phase = .escaped) (hl : s.dec.len < s.dec.cap) :
    Receives [s.cfg.mEsc] s (s.appendByte s.cfg.esc) :=
  Runs.of_step fun r => step_of_escapedMesc (s := s.withPending (_ :: r)) ha rfl hph hl

theorem receives_escapedBad (h₁ : b ≠ s.cfg.mEnd) (h₂ : b ≠ s.cfg.mEsc) (hph : s.dec.phase = .escaped) :
    Receives [b] s (raiseDec .invalidEscape s) :=
  Runs.of_step fun r => step_of_escapedBad (s := s.withPending (_ :: r)) ha rfl h₁ h₂ hph

theorem receives_resyncEnd {e : ErrorCode} (hph : s.dec.phase = .resync) (he : pendingError s.dec.status = some e) :
    Receives [s.cfg.delim] s (finishDec (.err e) s) :=
  Runs.of_step fun r => step_of_resyncEnd (s := s.withPending (_ :: r)) (rest := r) ha rfl hph he

theorem receives_resyncSkip (hb : b ≠ s.cfg.delim) (hph : s.dec.phase = .resync) : Receives [b] s s :=
  Runs.of_step fun r => step_of_resyncSkip (s := s.withPending (_ :: r)) ha rfl hb hph

/-- In `SEEK` and in `RESYNC` bytes that are no delimiter change nothing. -/
theorem receives_skipped (hph : s.dec.phase = .seek ∨ s.dec.phase = .resync) (hbs : s.cfg.delim ∉ bs) :
    Receives bs s s := by
  induction bs with
  | nil => exact Runs.nil
  | cons b bs ih =>
    obtain ⟨hb, hbs⟩ := not_or.1 (mt List.mem_cons.2 hbs)
    have hskip : Receives [b] s s :=
      hph.elim (receives_seekSkip ha (Ne.symm hb)) (receives_resyncSkip ha (Ne.symm hb))
    exact hskip.append (ih hbs)

/-- At a full buffer any byte but the delimiter begins a frame that is discarded up to its delimiter. -/
theorem receives_overflow (hne : bs ≠ []) (hbs : s.cfg.delim ∉ bs) (hph : s.dec.phase = .copy)
    (hl : s.dec.len = s.dec.cap) :
    Receives (bs ++ [s.cfg.delim]) s (finishDec (.err .frameTooLarge) (raiseDec .frameTooLarge s)) := by
  obtain ⟨b, bs, rfl⟩ := List.exists_cons_of_ne_nil hne
  obtain ⟨hb, hbs⟩ := not_or.1 (mt List.mem_cons.2 hbs)
  have hskip : Receives bs (raiseDec .frameTooLarge s) (raiseDec .frameTooLarge s) :=
    receives_skipped ha (.inr rfl) hbs
  have hend := receives_resyncEnd (s := raiseDec .frameTooLarge s) ha rfl rfl
  exact (receives_copyOvf ha (Ne.symm hb) hph hl).append (hskip.append hend)

/-- A decode call that has skipped its noise and taken the start delimiter is in `COPY` with nothing copied. -/
theorem runs_decode_open {noise : List Byte} {m o : Nat} (hph : s.dec.phase = .idle)
    (hl : ∀ k, s.cfg.lenMax = some k → m ≤ k) (hnoise : s.cfg.delim ∉ noise) :
    Runs (.decode m o :: srcBytes (noise ++ [s.cfg.delim])) s (s.copying m o) := by
  have hskip : Receives noise (s.seeking m o) (s.seeking m o) := receives_skipped ha (.inl rfl) hnoise
  have hopen : Receives [s.cfg.delim] (s.seeking m o) (s.copying m o) := receives_seekEnd (s := s.seeking m o) ha rfl
  exact (runs_decode ha hph hl).cons (hskip.append hopen)

end Rules

end Sys2Proof.Machine

/-! # Decoding a frame (41_decoder.md R180 to R184)

In `COPY` with room the escape of a payload byte appends that byte, whichever of the three parts it is. So a body
appends its payload as far as the capacity goes, and what comes at the full buffer decides the call's result: the
closing delimiter ends it with `Ok`, another part of the body overflows. -/

namespace Sys2Proof.Machine

/-- A decoder in `COPY` after the append of the bytes in order. -/
def State.appendBytes (s : State) (p : List Byte) : State := p.foldl State.appendByte s

variable {s : State} {p : List Byte}

@[simp] theorem State.appendBytes_cons (s : State) (b : Byte) (p : List Byte) :
    s.appendBytes (b :: p) = (s.appendByte b).appendBytes p := rfl

/-- The appends touch the `OUT` space and the decoder's registers only. -/
theorem State.appendBytes_eq (s : State) (p : List Byte) :
    s.appendBytes p = (s.withOut (s.appendBytes p).out).withDec (s.appendBytes p).dec := by
  induction p generalizing s with
  | nil => rfl
  | cons b p ih => exact ih (s.appendByte b)

@[simp] theorem State.appendBytes_cfg (s : State) (p : List Byte) : (s.appendBytes p).cfg = s.cfg := by
  rw [s.appendBytes_eq p, State.withDec_cfg, State.withOut_cfg]

@[simp] theorem State.appendBytes_enc (s : State) (p : List Byte) : (s.appendBytes p).enc = s.enc := by
  rw [s.appendBytes_eq p, State.withDec_enc, State.withOut_enc]

@[simp] theorem State.appendBytes_tx (s : State) (p : List Byte) : (s.appendBytes p).tx = s.tx := by
  rw [s.appendBytes_eq p, State.withDec_tx, State.withOut_tx]

@[simp] theorem State.appendBytes_decResults (s : State) (p : List Byte) :
    (s.appendBytes p).decResults = s.decResults := by
  rw [s.appendBytes_eq p, State.withDec_decResults, State.withOut_decResults]

@[simp] theorem State.appendBytes_encResults (s : State) (p : List Byte) :
    (s.appendBytes p).encResults = s.encResults := by
  rw [s.appendBytes_eq p, State.withDec_encResults, State.withOut_encResults]

theorem State.appendBytes_dec (hph : s.dec.phase = .copy) (p : List Byte) :
    (s.appendBytes p).dec = { s.dec with len := s.dec.len + p.length } := by
  induction p generalizing s with
  | nil => rfl
  | cons b p ih =>
    rw [State.appendBytes_cons, ih rfl]
    simp [State.appendByte, hph, Nat.add_assoc, Nat.add_comm 1]

/-- The appends write nothing outside the range they fill. -/
theorem State.memRead_appendBytes_other (s : State) (p : List Byte) {a : Nat}
    (h : a < s.dec.out + s.dec.len ∨ s.dec.out + s.dec.len + p.length ≤ a) :
    memRead (s.appendBytes p).out a = memRead s.out a := by
  induction p generalizing s with
  | nil => rfl
  | cons b p ih =>
    rw [List.length_cons] at h
    have hrest : a < s.dec.out + (s.dec.len + 1) ∨ s.dec.out + (s.dec.len + 1) + p.length ≤ a := by omega
    calc memRead (s.appendBytes (b :: p)).out a
        = memRead (s.appendByte b).out a := ih (s.appendByte b) hrest
      _ = memRead s.out a := memRead_memWrite_other s.out b (by omega)

/-- The range that the appends fill holds the bytes. -/
theorem State.memReadBytes_appendBytes (s : State) (p : List Byte) :
    memReadBytes (s.appendBytes p).out (s.dec.out + s.dec.len) p.length = some p := by
  induction p generalizing s with
  | nil => rfl
  | cons b p ih =>
    have hfirst : memRead (s.appendBytes (b :: p)).out (s.dec.out + s.dec.len) = some b :=
      ((s.appendByte b).memRead_appendBytes_other p (.inl (Nat.lt_succ_self _))).trans
        (memRead_memWrite_same s.out _ b)
    exact (memReadBytes_succ _ _ _ _).2 ⟨b, p, rfl, hfirst, ih (s.appendByte b)⟩

theorem frameBody_append (c : Config) (p q : List Byte) : frameBody c (p ++ q) = frameBody c p ++ frameBody c q := by
  simp only [frameBody_eq_flatMap, List.flatMap_append]

theorem frameBody_ne_nil (c : Config) (hp : p ≠ []) : frameBody c p ≠ [] := by
  obtain ⟨b, p, rfl⟩ := List.exists_cons_of_ne_nil hp
  obtain ⟨h, -⟩ | h | h := escByte_cases c b <;> simp [frameBody, h]

section Calls

variable (ha : s.cfg.admissible = true)
include ha

/-- With room for it, the escape of a byte appends the byte. -/
theorem receives_escByte (b : Byte) (hph : s.dec.phase = .copy) (hl : s.dec.len < s.dec.cap) :
    Receives (escByte s.cfg b) s (s.appendByte b) := by
  set escaped : State := s.withDec { s.dec with phase := .escaped }
  have hesc : Receives [s.cfg.esc] s escaped := receives_copyEsc ha hph hl
  unfold escByte
  split
  · next hd =>
    subst hd
    exact hesc.append (receives_escapedMend (s := escaped) ha rfl hl)
  · next hd =>
    split
    · next he =>
      subst he
      exact hesc.append (receives_escapedMesc (s := escaped) ha rfl hl)
    · next he => exact receives_copyLit ha hd he hph hl

/-- With room for it, the body of a payload appends the payload. -/
theorem receives_frameBody (hph : s.dec.phase = .copy) (hl : s.dec.len + p.length ≤ s.dec.cap) :
    Receives (frameBody s.cfg p) s (s.appendBytes p) := by
  induction p generalizing s with
  | nil => exact Runs.nil
  | cons b p ih =>
    rw [List.length_cons] at hl
    have hrest : (s.appendByte b).dec.len + p.length ≤ (s.appendByte b).dec.cap := by
      simp only [State.appendByte, State.withDec_dec]; omega
    exact (receives_escByte ha b hph (by omega)).append (ih (s := s.appendByte b) ha rfl hrest)

variable {m o : Nat} (hidle : s.dec.phase = .idle) (hlen : ∀ k, s.cfg.lenMax = some k → m ≤ k)
include hidle hlen

/-- A decode call on noise without a delimiter and the frame of a payload that the buffer can hold: `Ok`, and the buffer
holds the payload. -/
theorem runs_decode_frame {noise : List Byte} (hnoise : s.cfg.delim ∉ noise) (hp : p.length ≤ m) :
    Runs (.decode m o :: srcBytes (noise ++ frame s.cfg p)) s (finishDec (.ok p.length)
      ((s.copying m o).appendBytes p)) := by
  have hdec := State.appendBytes_dec (s := s.copying m o) rfl p
  have hbody : Receives (frameBody s.cfg p) (s.copying m o) ((s.copying m o).appendBytes p) :=
    receives_frameBody (s := s.copying m o) ha rfl (by simpa using hp)
  have hclose := receives_copyEnd (s := (s.copying m o).appendBytes p) (by simpa using ha) (by simp [hdec])
  simp only [hdec, State.appendBytes_cfg, State.withDec_dec, State.withDec_cfg, Nat.zero_add] at hclose
  have hrun := (runs_decode_open ha (o := o) hidle hlen hnoise).append (hbody.append hclose)
  rwa [List.cons_append, ← srcBytes_append, List.append_assoc] at hrun

/-- A decode call on the frame of a payload that is longer than the buffer: the buffer is filled, and the frame is
discarded up to its closing delimiter. -/
theorem runs_decode_frame_overflow (hp : m < p.length) :
    Runs (.decode m o :: srcBytes (frame s.cfg p)) s (finishDec (.err .frameTooLarge) (raiseDec .frameTooLarge
      ((s.copying m o).appendBytes (p.take m)))) := by
  have hdec := State.appendBytes_dec (s := s.copying m o) rfl (p.take m)
  have hfill : Receives (frameBody s.cfg (p.take m)) (s.copying m o) ((s.copying m o).appendBytes (p.take m)) :=
    receives_frameBody (s := s.copying m o) ha rfl (by simp)
  have hrest : frameBody s.cfg (p.drop m) ≠ [] :=
    frameBody_ne_nil _ (List.ne_nil_of_length_pos (by rw [List.length_drop]; omega))
  have hover := receives_overflow (s := (s.copying m o).appendBytes (p.take m)) (bs := frameBody s.cfg (p.drop m))
    (by simpa using ha) hrest (by simpa using delim_notMem_frameBody ha (p.drop m)) (by simp [hdec])
    (by simp [hdec, hp.le])
  rw [State.appendBytes_cfg] at hover
  have hrun := (runs_decode_open ha (o := o) hidle hlen List.not_mem_nil).append (hfill.append hover)
  rwa [List.cons_append, ← srcBytes_append, ← List.append_assoc (frameBody _ _), ← frameBody_append,
    List.take_append_drop] at hrun

end Calls

/-- Settles O51: the call with its noise. -/
theorem noiseBeforeFrameIsIgnored : Obligations.NoiseBeforeFrameIsIgnored := by
  intro s noise p maxLen o rest ha hidle hlen hnoise hp
  have hrun := (runs_decode_frame ha (o := o) hidle hlen hnoise hp).steps_srcBytes (es := [_]) rfl rest
  rw [List.length_append, ← Nat.add_assoc] at hrun
  exact ⟨_, hrun, by simp, State.memReadBytes_appendBytes (s.copying maxLen o) p, rfl, rfl⟩

/-- Settles O53: the frame of the empty payload, which appends nothing. -/
theorem emptyFrameDecodes : Obligations.EmptyFrameDecodes := fun _ maxLen _ rest ha hidle hlen =>
  ⟨_, (runs_decode_frame (noise := []) (p := []) ha hidle hlen List.not_mem_nil (Nat.zero_le maxLen)) rest,
    rfl, rfl, rfl, rfl⟩

/-- Settles O54: at the capacity the call is that of a frame that fits, above it that of one that overflows; both append
no more than the buffer holds. -/
theorem capacityBoundary : Obligations.CapacityBoundary := by
  intro s p n o rest ha hidle hlen hn
  obtain rfl | hlt := Nat.eq_or_lt_of_le hn
  case inl =>
    have hrun := runs_decode_frame (o := o) (noise := []) ha hidle hlen List.not_mem_nil le_rfl
    exact ⟨_, hrun.steps_srcBytes (es := [_]) rfl rest, rfl, rfl,
      fun _ => ⟨by simp, State.memReadBytes_appendBytes (s.copying _ o) p⟩, fun h => absurd h (lt_irrefl _),
      fun _ hout => State.memRead_appendBytes_other (s.copying _ o) p hout⟩
  case inr =>
    have hrun := runs_decode_frame_overflow (o := o) ha hidle hlen hlt
    refine ⟨_, hrun.steps_srcBytes (es := [_]) rfl rest, rfl, rfl, fun h => absurd h hlt.ne', fun _ => by simp,
      fun a hout => State.memRead_appendBytes_other (s.copying n o) (p.take n) ?_⟩
    rwa [List.length_take_of_le hn]

/-- An encode call on the payload `p` right after its command. -/
abbrev State.writing (s : State) (a : Nat) (p : List Byte) : State :=
  s.withEnc { phase := .writing, n := p.length, idx := 0, pay := a, write := some (frame s.cfg p), sub := .eOpen,
              emitted := [] }

/-- An encode call that the sink answers with `Ok`. -/
theorem runs_encode_ok {a : Nat} (ha : s.cfg.admissible = true) (hidle : s.enc.phase = .idle)
    (hlen : ∀ k, s.cfg.lenMax = some k → p.length ≤ k) (hp : memReadBytes s.pay a p.length = some p) :
    Runs [.encode a p.length, .sink .ok] s (finishEnc .ok ((s.writing a p).sendTx (frame s.cfg p))) := by
  have hencode : Runs [.encode a p.length] s (s.writing a p) :=
    .of_step fun r => step_of_encode (s := s.withPending (_ :: r)) (rest := r) ha rfl hidle hlen hp
  exact hencode.cons (.of_step fun r =>
    step_of_sinkOk (s := (s.writing a p).withPending (_ :: r)) (rest := r) ha rfl rfl)

/-- Settles O50: the encode call and then, the decoder untouched by it, the decode call on the frame. -/
theorem roundTrip : Obligations.RoundTrip := by
  intro s p pay maxLen o rest ha henc hdec hlen hp hpay
  have hencode := runs_encode_ok ha henc (fun k hk => hp.trans (hlen k hk)) hpay
  have hdecode := runs_decode_frame (s := finishEnc .ok ((s.writing pay p).sendTx (frame s.cfg p))) (noise := [])
    (o := o) ha hdec hlen List.not_mem_nil hp
  have hrun := (hencode.append hdecode).steps_srcBytes (es := [_, _, _]) rfl rest
  exact ⟨_, hrun, by simp, by simp, by simp, State.memReadBytes_appendBytes (State.copying _ maxLen o) p, rfl, rfl,
    by simp⟩

/-- The decoder after a call that a bad escape has ended. -/
abbrev State.endedByBadEscape (s : State) (m o : Nat) : State :=
  (s.withDec { phase := .idle, len := 0, cap := m, status := .invalidEscape, out := o }).deliverDec
    (.err .invalidEscape)

/-- A decode call on a bad escape, with room for one byte: the pair aborts the frame and the next delimiter delivers the
error. -/
theorem runs_decode_badEscape {m o : Nat} {x : Byte} (ha : s.cfg.admissible = true) (hidle : s.dec.phase = .idle)
    (hlen : ∀ k, s.cfg.lenMax = some k → m ≤ k) (hm : 0 < m) (h₁ : x ≠ s.cfg.mEnd) (h₂ : x ≠ s.cfg.mEsc) :
    Runs (.decode m o :: srcBytes [s.cfg.delim, s.cfg.esc, x, s.cfg.delim]) s
      (s.endedByBadEscape m o) := by
  set escaped : State := s.withDec { phase := .escaped, len := 0, cap := m, status := .none, out := o }
  have hesc : Receives [s.cfg.esc] (s.copying m o) escaped := receives_copyEsc (s := s.copying m o) ha rfl hm
  have hbad : Receives [x] escaped (raiseDec .invalidEscape escaped) :=
    receives_escapedBad (s := escaped) ha h₁ h₂ rfl
  have hend : Receives [s.cfg.delim] (raiseDec .invalidEscape escaped) _ :=
    receives_resyncEnd (s := raiseDec .invalidEscape escaped) ha rfl rfl
  exact (runs_decode_open ha hidle hlen List.not_mem_nil).append (hesc.append (hbad.append hend))

/-- Settles O52: with room the escape byte is taken and its successor is bad, and then a frame; without room the escape
byte overflows, and the delimiter that delivers the error is the bad successor or the one after it. -/
theorem badEscapeIsRejected : Obligations.BadEscapeIsRejected := by
  intro s x p maxLen maxLen' o o' rest ha hidle hlen h₁ h₂
  have hlen₁ := fun k hk => (hlen k hk).1
  refine ⟨fun hm hp => ?room, ?full⟩
  case room =>
    have hbad := runs_decode_badEscape (o := o) ha hidle hlen₁ hm h₁ h₂
    have hnext := runs_decode_frame (s := s.endedByBadEscape maxLen o) (noise := []) (o := o') ha rfl
      (fun k hk => (hlen k hk).2) List.not_mem_nil hp
    exact ⟨_, _, hbad _, rfl, rfl, rfl, rfl, hnext.steps_srcBytes (es := [_]) rfl rest, by simp,
      State.memReadBytes_appendBytes _ p, rfl⟩
  case full =>
    rintro rfl
    have hopen := runs_decode_open ha (o := o) hidle hlen₁ List.not_mem_nil
    have hover {bs : List Byte} (hne : bs ≠ []) (hbs : s.cfg.delim ∉ bs) :=
      hopen.append (receives_overflow (bs := bs) (by exact ha) hne hbs rfl rfl)
    have hde := (s.cfg.admissible_iff.1 ha).1
    by_cases hx : x = s.cfg.delim
    · subst hx
      exact ⟨4, _, hover (bs := [s.cfg.esc]) (by simp) (by simpa using hde) (.src (.byte s.cfg.delim) :: rest),
        rfl, rfl⟩
    · exact ⟨5, _, hover (bs := [s.cfg.esc, x]) (by simp) (by simp [hde, Ne.symm hx]) rest, rfl, rfl⟩

end Sys2Proof.Machine

/-! # A decode call depends on its events only (41_decoder.md R187)

What an answer of the source does is fixed by the parameters, the decoder's registers and the answer: the next
registers, the results delivered and the byte stored at `OUT[d_len]`. So two calls that begin alike stay alike. -/

namespace Sys2Proof.Machine

variable {s s' t : State} {a : SrcAnswer} {o : Nat} {rest rest' : List Event}

/-- What an answer of the source does: the registers after it, the result it delivers, if any, and the byte it stores at
`OUT[d_len]`, if any. -/
structure AnswerEffect where
  dec    : Dec
  result : Option DecResult
  stored : Option Byte

/-- The `OUT` space after the effect on a decoder with the registers `d`. -/
def AnswerEffect.applyOut (f : AnswerEffect) (d : Dec) (m : Memory) : Memory :=
  f.stored.elim m (memWrite m (d.out + d.len))

/-- The state after the effect. -/
def AnswerEffect.apply (f : AnswerEffect) (s : State) : State :=
  { s with dec := f.dec, out := f.applyOut s.dec s.out,
           decResults := f.result.elim s.decResults (s.decResults ++ [·]) }

theorem AnswerEffect.apply_decResults (f : AnswerEffect) (s : State) :
    (f.apply s).decResults = s.decResults ++ f.result.toList := by
  cases h : f.result <;> simp [AnswerEffect.apply, h]

/-- The buffer stays where it is, and the length grows at most by the byte that is stored. -/
def AnswerEffect.Fits (f : AnswerEffect) (d : Dec) : Prop :=
  f.dec.out = d.out ∧ f.dec.len ≤ d.len + f.stored.toList.length

/-- Two `OUT` spaces that agree on a call's payload agree on it after the effect. -/
theorem AnswerEffect.Fits.applyOut_agree {f : AnswerEffect} {d : Dec} {m m' : Memory} (hf : f.Fits d)
    (h : ∀ i, i < d.len → memRead m' (d.out + i) = memRead m (d.out + i)) {i : Nat} (hi : i < f.dec.len) :
    memRead (f.applyOut d m') (d.out + i) = memRead (f.applyOut d m) (d.out + i) := by
  obtain ⟨-, hlen⟩ := hf
  unfold applyOut
  cases hv : f.stored with
  | none => exact h i (hi.trans_le (by simpa [hv] using hlen))
  | some v =>
    simp only [hv, Option.toList_some, List.length_singleton] at hlen
    obtain rfl | hlt := Nat.eq_or_lt_of_le (Nat.lt_succ_iff.1 (hi.trans_le hlen))
    · exact (memRead_memWrite_same m' _ v).trans (memRead_memWrite_same m _ v).symm
    · have hne : d.out + i ≠ d.out + d.len := by omega
      exact (memRead_memWrite_other m' v hne).trans ((h i hlt).trans (memRead_memWrite_other m v hne).symm)

/-- The parameters and the decoder's registers of `s`, with everything else from `u`. -/
def State.withCallOf (u s : State) : State := { u with cfg := s.cfg, dec := s.dec }

theorem State.withCallOf_eq {u : State} (hcfg : u.cfg = s.cfg) (hdec : u.dec = s.dec) : u.withCallOf s = u := by
  simp only [State.withCallOf, ← hcfg, ← hdec]

/-- The effect of an answer is the same in every state with these parameters and registers. -/
theorem answerEffect_exists (hp : s.pending = .src a :: rest) (h : step s = .next t) :
    ∃ f : AnswerEffect, f.Fits s.dec ∧ ∀ (u : State) (rest' : List Event), u.pending = .src a :: rest' →
      step (u.withCallOf s) = .next (f.apply ((u.withCallOf s).withPending rest')) := by
  obtain ⟨ha, hc⟩ := step_cases h
  have hev {a₀ rest₀} (hq : s.pending = .src a₀ :: rest₀) {u : State} {r : List Event}
      (hu : u.pending = .src a :: r) : u.pending = .src a₀ :: r :=
    (firstEvent_transfer (P := fun _ => True) trivial hp hu hq).2
  have hstore {d : Dec} {v : Byte} (hd : d.out = s.dec.out) (hl : d.len = s.dec.len + 1) :
      AnswerEffect.Fits ⟨d, none, some v⟩ s.dec := ⟨hd, hl.le⟩
  have hkeep {d : Dec} {r : Option DecResult} (hd : d.out = s.dec.out) (hl : d.len ≤ s.dec.len) :
      AnswerEffect.Fits ⟨d, r, none⟩ s.dec := ⟨hd, hl⟩
  cases hc with
  | quiet hq => exact absurd (hp.symm.trans hq) (List.cons_ne_nil _ _)
  | srcFail _ hq hph =>
    exact ⟨⟨{ s.dec with len := 0, phase := .idle }, some (.err .transportFailure), none⟩, hkeep rfl (Nat.zero_le _),
      fun u r hu => step_of_srcFail (s := u.withCallOf s) ha (hev hq hu) hph⟩
  | seekEnd _ hq hph =>
    exact ⟨⟨{ s.dec with phase := .copy }, none, none⟩, hkeep rfl le_rfl,
      fun u r hu => step_of_seekEnd (s := u.withCallOf s) ha (hev hq hu) hph⟩
  | seekSkip _ b hq hb hph =>
    exact ⟨⟨s.dec, none, none⟩, hkeep rfl le_rfl,
      fun u r hu => step_of_seekSkip (s := u.withCallOf s) ha (hev hq hu) hb hph⟩
  | copyEnd _ hq hph =>
    exact ⟨⟨{ s.dec with phase := .idle }, some (.ok s.dec.len), none⟩, hkeep rfl le_rfl,
      fun u r hu => step_of_copyEnd (s := u.withCallOf s) ha (hev hq hu) hph⟩
  | copyOvf _ b hq hb hph hl =>
    exact ⟨⟨{ s.dec with status := .frameTooLarge, len := 0, phase := .resync }, none, none⟩,
      hkeep rfl (Nat.zero_le _), fun u r hu => step_of_copyOvf (s := u.withCallOf s) ha (hev hq hu) hb hph hl⟩
  | copyEsc _ hq hph hl =>
    exact ⟨⟨{ s.dec with phase := .escaped }, none, none⟩, hkeep rfl le_rfl,
      fun u r hu => step_of_copyEsc (s := u.withCallOf s) ha (hev hq hu) hph hl⟩
  | copyLit _ b hq hb he hph hl =>
    exact ⟨⟨{ s.dec with len := s.dec.len + 1, phase := .copy }, none, some b⟩, hstore rfl rfl,
      fun u r hu => step_of_copyLit (s := u.withCallOf s) ha (hev hq hu) hb he hph hl⟩
  | escapedMend _ hq hph hl =>
    exact ⟨⟨{ s.dec with len := s.dec.len + 1, phase := .copy }, none, some s.cfg.delim⟩, hstore rfl rfl,
      fun u r hu => step_of_escapedMend (s := u.withCallOf s) ha (hev hq hu) hph hl⟩
  | escapedMesc _ hq hph hl =>
    exact ⟨⟨{ s.dec with len := s.dec.len + 1, phase := .copy }, none, some s.cfg.esc⟩, hstore rfl rfl,
      fun u r hu => step_of_escapedMesc (s := u.withCallOf s) ha (hev hq hu) hph hl⟩
  | escapedBad _ b hq hd he hph =>
    exact ⟨⟨{ s.dec with status := .invalidEscape, len := 0, phase := .resync }, none, none⟩,
      hkeep rfl (Nat.zero_le _), fun u r hu => step_of_escapedBad (s := u.withCallOf s) ha (hev hq hu) hd he hph⟩
  | resyncEnd _ e hq hph he =>
    exact ⟨⟨{ s.dec with phase := .idle }, some (.err e), none⟩, hkeep rfl le_rfl,
      fun u r hu => step_of_resyncEnd (s := u.withCallOf s) ha (hev hq hu) hph he⟩
  | resyncSkip _ b hq hb hph =>
    exact ⟨⟨s.dec, none, none⟩, hkeep rfl le_rfl,
      fun u r hu => step_of_resyncSkip (s := u.withCallOf s) ha (hev hq hu) hb hph⟩
  | _ => cases hp.symm.trans ‹s.pending = _ :: _›

/-- Two states with the same decode call in progress: the same parameters and registers, and the same payload so far. -/
structure SameCall (o : Nat) (s s' : State) : Prop where
  cfg   : s'.cfg = s.cfg
  dec   : s'.dec = s.dec
  base  : s.dec.out = o
  bytes : ∀ i, i < s.dec.len → memRead s'.out (o + i) = memRead s.out (o + i)

/-- The same answer keeps the same call in progress and delivers the same results. -/
theorem SameCall.step (hs : SameCall o s s') (hp : s.pending = .src a :: rest) (hp' : s'.pending = .src a :: rest')
    (h : step s = .next t) :
    ∃ t' rs, Machine.step s' = .next t' ∧ SameCall o t t' ∧ t.pending = rest ∧ t'.pending = rest'
      ∧ t.decResults = s.decResults ++ rs ∧ t'.decResults = s'.decResults ++ rs := by
  obtain ⟨hcfg, hdec, rfl, hbytes⟩ := hs
  obtain ⟨f, hf, hstep⟩ := answerEffect_exists hp h
  have ht : t = f.apply (s.withPending rest) := Host.Outcome.next.inj (h.symm.trans (hstep s rest hp))
  have hs' := hstep s' rest' hp'
  rw [State.withCallOf_eq hcfg hdec] at hs'
  subst ht
  refine ⟨_, f.result.toList, hs', ⟨hcfg, rfl, hf.1, fun i hi => ?_⟩, rfl, rfl, f.apply_decResults _,
    f.apply_decResults _⟩
  change memRead (f.applyOut s'.dec s'.out) (s.dec.out + i) = memRead (f.applyOut s.dec s.out) (s.dec.out + i)
  rw [hdec]
  exact hf.applyOut_agree hbytes hi

/-- A run of one step more begins with a step. -/
theorem steps_succ_next {k : Nat} (h : steps (k + 1) s = .next t) : ∃ u, step s = .next u ∧ steps k u = .next t := by
  simp only [steps] at h
  split at h
  · next u hu => exact ⟨u, hu, h⟩
  · cases h
  · cases h

/-- The same answers, one after another. -/
theorem SameCall.steps {es : List SrcAnswer} (hs : SameCall o s s') (hp : s.pending = srcEvents es ++ rest)
    (hp' : s'.pending = srcEvents es ++ rest') (h : steps es.length s = .next t) :
    ∃ t' rs, Machine.steps es.length s' = .next t' ∧ SameCall o t t'
      ∧ t.decResults = s.decResults ++ rs ∧ t'.decResults = s'.decResults ++ rs := by
  induction es generalizing s s' with
  | nil =>
    cases h
    exact ⟨s', [], rfl, hs, (List.append_nil _).symm, (List.append_nil _).symm⟩
  | cons a es ih =>
    obtain ⟨u, hu, h⟩ := steps_succ_next h
    obtain ⟨u', rs, hu', hsame, hup, hup', hres, hres'⟩ := hs.step hp hp' hu
    obtain ⟨t', rs', ht', hsame', hres₂, hres₂'⟩ := ih hsame hup hup' h
    exact ⟨t', rs ++ rs', (steps_succ _ hu').trans ht', hsame', by rw [hres₂, hres, List.append_assoc],
      by rw [hres₂', hres', List.append_assoc]⟩

/-- A decode command that a step takes begins a call (R140). -/
theorem step_decode_next {m : Nat} (hp : s.pending = .decode m o :: rest) (h : step s = .next t) :
    s.cfg.admissible = true ∧ (∀ k, s.cfg.lenMax = some k → m ≤ k) ∧
      t = (s.withPending rest).seeking m o := by
  obtain ⟨ha, -⟩ := step_next h
  obtain ⟨-, hl, rfl⟩ := execDecode_next ((step_event ha hp).symm.trans h)
  exact ⟨ha, (Config.lengthOk_iff _ _).1 hl, rfl⟩

/-- Settles O57: the two commands begin the same call, with no payload so far. -/
theorem callsDependOnTheirEventsOnly : Obligations.CallsDependOnTheirEventsOnly := by
  intro s s' t maxLen o es rest rest' hcfg hidle' _ h
  rw [Nat.add_comm] at h ⊢
  obtain ⟨u, hu, h⟩ := steps_succ_next h
  obtain ⟨ha, hl, rfl⟩ := step_decode_next (rest := srcEvents es ++ rest) rfl hu
  have ha' : s'.cfg.admissible = true := hcfg ▸ ha
  have hl' : ∀ k, s'.cfg.lenMax = some k → maxLen ≤ k := hcfg ▸ hl
  have hu' := step_of_decode (s := s'.withPending (.decode maxLen o :: (srcEvents es ++ rest'))) ha' rfl hidle' hl'
  have hsame : SameCall o ((s.withPending (srcEvents es ++ rest)).seeking maxLen o)
      ((s'.withPending (srcEvents es ++ rest')).seeking maxLen o) :=
    ⟨hcfg, rfl, rfl, fun i hi => absurd hi (Nat.not_lt_zero i)⟩
  obtain ⟨t', rs, ht', hsame', hres, hres'⟩ := hsame.steps rfl rfl h
  exact ⟨t', rs, (steps_succ _ hu').trans ht', hsame'.dec, hres, hres', hsame'.bytes⟩

end Sys2Proof.Machine

/-! # The symbol tables and the opcode table (30_encoding.md R84 to R98)

A row of a context has a symbol of one byte, and the tables read backwards give the row back. The opcode table picks the
same row by priority: of its fourteen rows only those of the context's format can match, and of these the catch-all row
always matches and has the lowest priority. -/

namespace Sys2Proof

variable {x : Context} {b : Byte} {r : Row} {rs : List Row} {i : Instr}

/-- An operation that stands in a context's table has a symbol of one byte (R81, R91). -/
theorem encode_eq_singleton_of_inContext (c : Config) (hx : i.inContext x = true) : ∃ b, encode c i = [b] := by
  cases i with
  | srcFail | txOpen | txClose | encode | decode => cases hx
  | _ => exact ⟨_, rfl⟩

/-- Settles O2: the symbol is one byte, and the tables read backwards answer the operation. -/
theorem decodeInvertsEncode : Obligations.DecodeInvertsEncode := by
  intro c x i rest ha hw hx
  obtain ⟨b, hb⟩ := encode_eq_singleton_of_inContext c hx
  rw [hb]
  exact congrArg (Decoded.ok · rest) (decodeSymbol_eq_of_encode ha hx hw hb)

/-- Only rows of the context's format match. -/
theorem format_of_rowMatches (hr : rowMatches x b r = true) : r.format = contextFormat x := by
  simp only [rowMatches, Bool.and_eq_true, decide_eq_true_eq] at hr
  obtain ⟨⟨hformat, -⟩, -⟩ := hr
  exact hformat

/-- Where no later row of a format has a higher priority, the first row that matches is selected. -/
theorem selectRow_eq_find? (x : Context) (b : Byte)
    (h : rs.Pairwise fun r r' => r.format = r'.format → r'.priority ≤ r.priority) :
    selectRow x b rs = rs.find? (rowMatches x b) := by
  induction rs with
  | nil => rfl
  | cons r rs ih =>
    obtain ⟨hr, hrs⟩ := List.pairwise_cons.1 h
    rw [selectRow, ih hrs, List.find?_cons]
    cases hm : rowMatches x b r with
    | false => rfl
    | true =>
      cases hf : rs.find? (rowMatches x b) with
      | none => rfl
      | some r' =>
        have hformat := (format_of_rowMatches hm).trans (format_of_rowMatches (List.find?_some hf)).symm
        exact if_neg (Nat.not_lt.2 (hr r' (List.mem_of_find?_eq_some hf) hformat))

/-- In each format the opcode table's rows stand in the order of their priorities. -/
theorem symbolRows_pairwise (c : Config) :
    (symbolRows c).Pairwise fun r r' => r.format = r'.format → r'.priority ≤ r.priority := by
  simp [symbolRows]

theorem find?_cons_eq_ite (f : Row → Bool) (r : Row) (rs : List Row) :
    (r :: rs).find? f = if f r = true then some r else rs.find? f := by
  rw [List.find?_cons]
  cases f r <;> rfl

/-- The full mask compares the whole symbol. -/
theorem and_fullMask (b : Byte) : b &&& 255#8 = b := BitVec.and_allOnes

/-- Settles O4: the rows of a format stand in the order of their priorities, so both readings take the first row that
matches. -/
theorem rowPriorityAgreesWithTables : Obligations.RowPriorityAgreesWithTables := by
  intro c x b _
  rw [selectRow_eq_find? x b (symbolRows_pairwise c)]
  cases x with
  | rxCopy full =>
    cases full <;>
      simp [symbolRows, find?_cons_eq_ite, rowMatches, contextFormat, contextMeets, decodeSymbol, and_fullMask,
        -Option.map_eq_some_iff] <;>
      split_ifs <;> rfl
  | _ =>
    simp [symbolRows, find?_cons_eq_ite, rowMatches, contextFormat, contextMeets, decodeSymbol, and_fullMask,
      -Option.map_eq_some_iff]
    split_ifs <;> rfl

/-- Settles O1: each word is a row of the tables, evaluated. -/
theorem tableWordsDecode : Obligations.TableWordsDecode := by
  unfold Obligations.TableWordsDecode
  decide

end Sys2Proof

/-! # What every step keeps (10_state.md R29, R33; 20_memory.md R52)

Read off the inversion of a step. The decoder's invariant is a fact about its registers, so only the events that write
them are cases. The encoder's is one about its registers, the parameters and the payload range of `PAY`, which a caller
cannot write during a call. -/

namespace Sys2Proof.Machine

variable {s t : State}

/-- The decoder's invariant speaks of the decoder's registers only. -/
theorem decoderInv_of_dec_eq (h : decoderInv s) (hd : t.dec = s.dec) : decoderInv t := by
  unfold decoderInv
  rwa [hd]

/-- Settles O41: each operation's next registers, case by case. -/
theorem stepKeepsDecoderInvariant : Obligations.StepKeepsDecoderInvariant := by
  intro s t hinv h
  have ⟨hcap, _, _, _, hstatus⟩ := hinv
  obtain ⟨-, hcase⟩ := step_cases h
  cases hcase with
  | seekEnd rest _ hph => simp [decoderInv, hcap, hstatus (.inl hph)]
  | copyEsc rest _ hph hl => simp [decoderInv, hcap, hl, hstatus (.inr (.inl hph))]
  | copyLit rest b _ _ _ hph hl => simp [decoderInv, Nat.succ_le_of_lt hl, hstatus (.inr (.inl hph))]
  | escapedMend rest _ hph hl | escapedMesc rest _ hph hl =>
    simp [decoderInv, Nat.succ_le_of_lt hl, hstatus (.inr (.inr hph))]
  | decode | srcFail | copyOvf | escapedBad | reset => simp [decoderInv, Dec.reset]
  | copyEnd | resyncEnd => simp [decoderInv, hcap]
  | _ => exact decoderInv_of_dec_eq hinv rfl

theorem encoderInv_of_idle (hi : t.enc.idx ≤ t.enc.n) (hph : t.enc.phase = .idle) (hw : t.enc.write = none) :
    encoderInv t :=
  ⟨hi, fun _ => hw, fun h => (nomatch hph.symm.trans h)⟩

theorem encoderInv_of_writing {p : List Byte} (hi : t.enc.idx ≤ t.enc.n) (hph : t.enc.phase = .writing)
    (hp : memReadBytes t.pay t.enc.pay t.enc.n = some p) (hw : t.enc.write = some (frame t.cfg p))
    (he : emissionInv t.cfg p t.enc) : encoderInv t :=
  ⟨hi, fun h => (nomatch hph.symm.trans h), fun _ => ⟨p, hp, hw, he⟩⟩

/-- The encoder's invariant speaks of its registers, the parameters and the payload range of `PAY`. -/
theorem encoderInv_of_enc_eq (h : encoderInv s) (henc : t.enc = s.enc) (hcfg : t.cfg = s.cfg)
    (hpay : s.enc.phase = .writing →
      memReadBytes t.pay s.enc.pay s.enc.n = memReadBytes s.pay s.enc.pay s.enc.n) : encoderInv t := by
  obtain ⟨hi, hidle, hwriting⟩ := h
  unfold encoderInv
  rw [henc, hcfg]
  refine ⟨hi, hidle, fun hph => ?_⟩
  rw [hpay hph]
  exact hwriting hph

/-- An emission keeps the encoder's invariant, if it emits what the next part of the frame is. -/
theorem encoderInv_emitBytes {bs : List Byte} {idx : Nat} {sub : ESub} (h : encoderInv s)
    (hph : s.enc.phase = .writing) (hi : idx ≤ s.enc.n)
    (he : ∀ p, memReadBytes s.pay s.enc.pay s.enc.n = some p → emissionInv s.cfg p s.enc →
      emissionInv s.cfg p { s.enc with emitted := s.enc.emitted ++ bs, idx := idx, sub := sub }) :
    encoderInv (emitBytes bs idx sub s) := by
  obtain ⟨-, -, hwriting⟩ := h
  obtain ⟨p, hp, hw, hem⟩ := hwriting hph
  exact encoderInv_of_writing hi hph hp hw (he p hp hem)

/-- The body of one payload byte more. -/
theorem frameBody_take_succ {p : List Byte} {i : Nat} {b : Byte} (c : Config) (hb : p[i]? = some b) :
    frameBody c (p.take (i + 1)) = frameBody c (p.take i) ++ escByte c b := by
  rw [List.take_add_one, hb, frameBody_append]
  simp [frameBody]

/-- Settles O42: the command begins a call with nothing emitted, each emission extends what has been emitted by the next
part of the frame, and the sink's answer and a reset end the call. -/
theorem stepKeepsEncoderInvariant : Obligations.StepKeepsEncoderInvariant := by
  intro s t hinv h
  obtain ⟨-, hcase⟩ := step_cases h
  have hkeep (u : State) (henc : u.enc = s.enc) (hcfg : u.cfg = s.cfg) (hpay : u.pay = s.pay) : encoderInv u :=
    encoderInv_of_enc_eq hinv henc hcfg fun _ => by rw [hpay]
  have hpend (rest : List Event) : encoderInv (s.withPending rest) := hkeep _ rfl rfl rfl
  cases hcase with
  | encode rest a n p _ _ _ hr => exact encoderInv_of_writing (Nat.zero_le n) rfl hr rfl ⟨rfl, rfl⟩
  | txOpen rest _ hph hsub =>
    refine encoderInv_emitBytes (hpend rest) hph hinv.1 fun p _ hem => ?_
    simp only [State.withPending_enc, State.withPending_cfg, emissionInv, hsub] at hem ⊢
    obtain ⟨hidx, hemitted⟩ := hem
    simp [hidx, hemitted, frameBody]
  | txByte rest b _ hph hsub hi hr =>
    refine encoderInv_emitBytes (hpend rest) hph hi fun p hp hem => ?_
    have hb : p[s.enc.idx]? = some b := (((memReadBytes_iff _ _ _ _).1 hp).2 _ hi).symm.trans hr
    simp only [State.withPending_enc, State.withPending_cfg, emissionInv, hsub] at hem ⊢
    rw [hem, frameBody_take_succ _ hb, List.append_assoc]
  | txClose rest _ hph hsub hi =>
    refine encoderInv_emitBytes (hpend rest) hph hinv.1 fun p hp hem => ?_
    have hlen : p.length = s.enc.n := memReadBytes_length _ _ _ _ hp
    simp only [State.withPending_enc, State.withPending_cfg, emissionInv, hsub] at hem ⊢
    exact ⟨hi, by rw [hem, hi, ← hlen, List.take_length, frame]⟩
  | sinkOk | sinkFail => exact encoderInv_of_idle hinv.1 rfl rfl
  | reset => exact encoderInv_of_idle le_rfl rfl rfl
  | callerWritePay rest x v _ hx =>
    refine encoderInv_of_enc_eq hinv rfl rfl fun hph => memReadBytes_congr _ _ _ _ fun y hlo hhi => ?_
    refine memRead_memWrite_other _ _ ?_
    rintro rfl
    exact Bool.false_ne_true (hx.symm.trans ((ownedByEnc_iff _ _).2 ⟨hph, hlo, hhi⟩))
  | _ => exact hkeep _ rfl rfl rfl

/-- A reset that abandons a write touches the outbound stream only. -/
theorem abandonWrite_eq (k : Nat) (s : State) : abandonWrite k s = { s with tx := (abandonWrite k s).tx } := by
  obtain ⟨-, h⟩ | ⟨f, -, h⟩ := abandonWrite_cases k s <;> rw [h]
  rfl

@[simp] theorem abandonWrite_cfg (k : Nat) (s : State) : (abandonWrite k s).cfg = s.cfg := by rw [abandonWrite_eq]
@[simp] theorem abandonWrite_out (k : Nat) (s : State) : (abandonWrite k s).out = s.out := by rw [abandonWrite_eq]
@[simp] theorem abandonWrite_pay (k : Nat) (s : State) : (abandonWrite k s).pay = s.pay := by rw [abandonWrite_eq]
@[simp] theorem abandonWrite_pending (k : Nat) (s : State) : (abandonWrite k s).pending = s.pending := by
  rw [abandonWrite_eq]

/-- A step takes the next event off and leaves the later ones. -/
theorem StepCase.pending_eq {e : Event} {rest : List Event} (h : StepCase s t) (hp : s.pending = e :: rest) :
    t.pending = rest := by
  cases h with
  | quiet hq => cases hp.symm.trans hq
  | reset rest' k hq =>
    cases hp.symm.trans hq
    exact abandonWrite_pending k _
  | _ =>
    cases hp.symm.trans ‹s.pending = _ :: _›
    rfl

theorem StepCase.cfg_eq (h : StepCase s t) : t.cfg = s.cfg := by
  cases h with
  | reset rest k => exact abandonWrite_cfg k (s.withPending rest)
  | _ => rfl

/-- A step changes the buffer spaces by at most one store. -/
theorem StepCase.memory_cases (h : StepCase s t) :
    (t.out = s.out ∧ t.pay = s.pay) ∨ (∃ a v, t.out = memWrite s.out a v ∧ t.pay = s.pay)
      ∨ ∃ a v, t.out = s.out ∧ t.pay = memWrite s.pay a v := by
  cases h with
  | copyLit | escapedMend | escapedMesc | callerWriteOut => exact .inr (.inl ⟨_, _, rfl, rfl⟩)
  | callerWritePay => exact .inr (.inr ⟨_, _, rfl, rfl⟩)
  | reset rest k => exact .inl ⟨abandonWrite_out k _, abandonWrite_pay k _⟩
  | _ => exact .inl ⟨rfl, rfl⟩

/-- Settles O43: a step changes the spaces by at most one store, which keeps the canonical form. -/
theorem stepKeepsMemoryCanonical : Obligations.StepKeepsMemoryCanonical := by
  intro s t ⟨hout, hpay⟩ h
  obtain ⟨-, hcase⟩ := step_cases h
  refine ⟨?_, hcase.cfg_eq⟩
  unfold memoryInv
  obtain ⟨ho, hp⟩ | ⟨a, v, ho, hp⟩ | ⟨a, v, ho, hp⟩ := hcase.memory_cases <;> rw [ho, hp]
  · exact ⟨hout, hpay⟩
  · exact ⟨memWrite_wf _ _ _ hout, hpay⟩
  · exact ⟨hout, memWrite_wf _ _ _ hpay⟩

/-- Settles O40: both units are idle with their lengths at 0, and both spaces are empty. -/
theorem invariantsHoldAtReset : Obligations.InvariantsHoldAtReset :=
  ⟨by simp [decoderInv, State.reset, Dec.reset], encoderInv_of_idle le_rfl rfl rfl, rfl, rfl⟩

/-- A second store of the same byte changes nothing. -/
theorem memWrite_memWrite_same (m : Memory) (a : Nat) (v : Byte) : memWrite (memWrite m a v) a v = memWrite m a v := by
  induction m with
  | nil => simp [memWrite]
  | cons c m ih =>
    obtain ⟨b, w⟩ := c
    obtain hlt | rfl | hgt := lt_trichotomy a b
    · simp [memWrite, hlt]
    · simp [memWrite]
    · simp [memWrite, hgt.not_gt, hgt.ne', ih]

/-- Settles O44. -/
theorem storeSetsOneByte : Obligations.StoreSetsOneByte := fun m a v =>
  ⟨memRead_memWrite_same m a v, fun _ hx => memRead_memWrite_other m v hx, memWrite_wf m a v,
    memWrite_memWrite_same m a v⟩

end Sys2Proof.Machine

/-! # What an operation leaves unchanged (10_state.md R22, R26, R32)

Read off the inversion of each operation's meaning. -/

namespace Sys2Proof.Machine

variable {s t : State}

/-- The three appends: a byte of `OUT` other than the one at `OUT[d_len]` reads as before. -/
theorem memRead_append_other {v : Byte} {a : Nat} (h : a ≠ outAddr s.dec) :
    memRead (memWrite s.out (s.dec.out + s.dec.len) v) a = memRead s.out a :=
  memRead_memWrite_other s.out v h

/-- Settles O22: each operation's update of the decoder's part of the state. -/
theorem decoderFrame : Obligations.DecoderFrame := by
  intro i s t hi h
  cases i with
  | seekEnd => obtain ⟨-, rfl⟩ := execSeekEnd_next h; simp [endsCall]
  | seekSkip b => obtain ⟨-, rfl⟩ := execSeekSkip_next b h; simp
  | copyEnd => obtain ⟨-, rfl⟩ := execCopyEnd_next h; simp [endsCall]
  | copyOvf b => obtain ⟨-, -, rfl⟩ := execCopyOvf_next b h; simp [writesLen, writesStatus]
  | copyEsc => obtain ⟨-, -, rfl⟩ := execCopyEsc_next h; simp
  | copyLit b =>
    obtain ⟨-, -, rfl⟩ := execCopyLit_next h
    simp +contextual [writesLen, appends, memRead_append_other]
  | escapedMend =>
    obtain ⟨-, -, rfl⟩ := execEscapedMend_next h
    simp +contextual [writesLen, appends, memRead_append_other]
  | escapedMesc =>
    obtain ⟨-, -, rfl⟩ := execEscapedMesc_next h
    simp +contextual [writesLen, appends, memRead_append_other]
  | escapedBad b => obtain ⟨-, rfl⟩ := execEscapedBad_next b h; simp [writesLen, writesStatus]
  | resyncEnd => obtain ⟨-, e, -, rfl⟩ := execResyncEnd_next h; simp [endsCall]
  | resyncSkip b => obtain ⟨-, rfl⟩ := execResyncSkip_next b h; simp
  | srcFail => obtain ⟨-, rfl⟩ := execSrcFail_next h; simp [writesLen, endsCall]
  | decode m o => obtain ⟨-, -, rfl⟩ := execDecode_next h; simp [writesLen, writesStatus]
  | txOpen | txEscd | txEsce | txLit | txClose | encode => cases hi

/-- An emission touches the encoder's progress only. -/
theorem exec_emission_next {i : Instr} (hi : decOperation i = false) (hne : ∀ p n, i ≠ .encode p n)
    (h : exec i s = .next t) : ∃ bs idx sub, t = emitBytes bs idx sub s := by
  cases i with
  | txOpen => exact ⟨_, _, _, (execTxOpen_next h).2.2⟩
  | txEscd => exact ⟨_, _, _, (execTxEscd_next h).2⟩
  | txEsce => exact ⟨_, _, _, (execTxEsce_next h).2⟩
  | txLit b => exact ⟨_, _, _, (execTxLit_next h).2⟩
  | txClose => exact ⟨_, _, _, (execTxClose_next h).2.2.2⟩
  | encode p n => exact absurd rfl (hne p n)
  | _ => cases hi

/-- Settles O27: the command sets the encoder's registers, an emission its progress. -/
theorem encoderFrame : Obligations.EncoderFrame := by
  intro i s t hi h
  by_cases hcmd : ∃ p n, i = .encode p n
  · obtain ⟨p, n, rfl⟩ := hcmd
    obtain ⟨-, -, q, -, rfl⟩ := execEncode_next h
    exact ⟨rfl, rfl, fun _ => rfl, fun _ => rfl, rfl, rfl, rfl, rfl, fun hne => absurd rfl (hne p n)⟩
  · obtain ⟨bs, idx, sub, rfl⟩ := exec_emission_next hi (fun p n hn => hcmd ⟨p, n, hn⟩) h
    exact ⟨rfl, rfl, fun _ => rfl, fun _ => rfl, rfl, rfl, rfl, rfl, fun _ => ⟨rfl, rfl, rfl, rfl⟩⟩

end Sys2Proof.Machine

/-! # The laws of frames (40_encoder.md R124, R127)

The length is counted along the payload. That a frame names its payload is shown by decoding: the bytes of a body, fed
to a decoder in `COPY` with room, append the payload, so equal bodies append equal payloads. -/

namespace Sys2Proof.Machine

variable {c : Config}

/-- An escape has one byte more for each of the two reserved bytes. -/
theorem length_escByte (ha : c.admissible = true) (b : Byte) :
    (escByte c b).length = 1 + ([b].count c.delim + [b].count c.esc) := by
  obtain ⟨hde, -⟩ := c.admissible_iff.1 ha
  unfold escByte
  split
  · next hd => simp [hd, hde]
  · next hd =>
    split
    · next he => simp [he, hde.symm]
    · next he => simp [hd, he]

theorem length_frameBody (ha : c.admissible = true) (p : List Byte) :
    (frameBody c p).length = p.length + (p.count c.delim + p.count c.esc) := by
  induction p with
  | nil => rfl
  | cons b p ih =>
    have hcount (d : Byte) : (b :: p).count d = [b].count d + p.count d := List.count_append (l₁ := [b])
    rw [frameBody, List.length_append, length_escByte ha, ih, hcount, hcount, List.length_cons]
    omega

/-- Settles O33: the two delimiters and the body. -/
theorem frameLengthFormula : Obligations.FrameLengthFormula := by
  intro c p ha
  rw [frame, List.length_append, List.length_append, length_frameBody ha, List.length_singleton]
  omega

/-- A decoder in `COPY` with nothing copied, under the parameters `c`. -/
def copyStart (c : Config) (cap : Nat) : State :=
  ({ State.reset with cfg := c }).copying cap 0

theorem frameBody_injective (ha : c.admissible = true) {p q : List Byte} (h : frameBody c p = frameBody c q) :
    p = q := by
  set s := copyStart c (max p.length q.length)
  have hp : Receives (frameBody c p) s (s.appendBytes p) := receives_frameBody (s := s) ha rfl (by simp [s, copyStart])
  have hq : Receives (frameBody c q) s (s.appendBytes q) := receives_frameBody (s := s) ha rfl (by simp [s, copyStart])
  rw [← h] at hq
  have hsame : (s.appendBytes p).withPending [] = (s.appendBytes q).withPending [] :=
    Host.Outcome.next.inj ((hp []).symm.trans (hq []))
  have hout : (s.appendBytes p).out = (s.appendBytes q).out := (congrArg State.out hsame :)
  have hlen : p.length = q.length := by
    have hdec : (s.appendBytes p).dec = (s.appendBytes q).dec := (congrArg State.dec hsame :)
    simpa [State.appendBytes_dec (s := s) rfl] using hdec
  have hread := State.memReadBytes_appendBytes s p
  rw [hout, hlen, State.memReadBytes_appendBytes s q] at hread
  exact (Option.some.inj hread).symm

/-- Settles O36: equal frames have equal bodies. -/
theorem frameInjective : Obligations.FrameInjective := by
  intro c p q ha h
  have hbody := congrArg (fun f => (f.drop 1).dropLast) h
  simp only [frame_drop_dropLast] at hbody
  exact frameBody_injective ha hbody

end Sys2Proof.Machine

/-! # The byte-serial machine (40_encoder.md R118)

From the body's phase the machine emits the escape of the next payload byte in one step or two; so it emits the body,
and then the closing delimiter, after which it stays as it is. -/

namespace Sys2Proof.Machine

variable {c : Config} {p : List Byte} {t u v : Serial}

/-- Some number of steps takes `t` to `u`. -/
def SerialReaches (c : Config) (p : List Byte) (t u : Serial) : Prop := ∃ k, serialRun c p k t = u

theorem serialRun_add (c : Config) (p : List Byte) (m n : Nat) (t : Serial) :
    serialRun c p (m + n) t = serialRun c p n (serialRun c p m t) := by
  induction m generalizing t with
  | zero => rw [Nat.zero_add, serialRun]
  | succ m ih => rw [Nat.succ_add, serialRun, serialRun, ih]

theorem SerialReaches.refl (t : Serial) : SerialReaches c p t t := ⟨0, rfl⟩

theorem SerialReaches.step (h : serialStep c p t = u) : SerialReaches c p t u := ⟨1, h⟩

theorem SerialReaches.trans (h₁ : SerialReaches c p t u) (h₂ : SerialReaches c p u v) : SerialReaches c p t v := by
  obtain ⟨m, rfl⟩ := h₁
  obtain ⟨n, rfl⟩ := h₂
  exact ⟨m + n, serialRun_add c p m n t⟩

/-- The next payload byte's escape. -/
theorem serialReaches_byte {i : Nat} {b : Byte} (hb : p[i]? = some b) (e : List Byte) :
    SerialReaches c p ⟨.eBody, i, e⟩ ⟨.eBody, i + 1, e ++ escByte c b⟩ := by
  have hpair {m : Byte} (h : serialStep c p ⟨.eBody, i, e⟩ = ⟨.eEsc2 m, i, e ++ [c.esc]⟩) :
      SerialReaches c p ⟨.eBody, i, e⟩ ⟨.eBody, i + 1, e ++ [c.esc, m]⟩ :=
    (SerialReaches.step h).trans (.step (by simp [serialStep]))
  unfold escByte
  split
  · next hd => exact hpair (by simp [serialStep, hb, hd])
  · next hd =>
    split
    · next he => exact hpair (by simp only [serialStep, hb, if_neg hd, if_pos he])
    · next he => exact .step (by simp [serialStep, hb, hd, he])

/-- The rest of the payload, from the index on which it begins. -/
theorem serialReaches_body (pre q e : List Byte) :
    SerialReaches c (pre ++ q) ⟨.eBody, pre.length, e⟩ ⟨.eBody, (pre ++ q).length, e ++ frameBody c q⟩ := by
  induction q generalizing pre e with
  | nil => simpa [frameBody] using SerialReaches.refl _
  | cons b q ih =>
    have hrest := ih (pre ++ [b]) (e ++ escByte c b)
    have hlen : (pre ++ [b]).length = pre.length + 1 := List.length_append
    rw [hlen, List.append_assoc, List.append_assoc, List.singleton_append] at hrest
    exact (serialReaches_byte (by simp) e).trans hrest

theorem serialRun_done (j i : Nat) (e : List Byte) : serialRun c p j ⟨.eDone, i, e⟩ = ⟨.eDone, i, e⟩ := by
  induction j with
  | zero => rfl
  | succ j ih => exact ih

/-- Settles O32: the opening delimiter, the body, the step that finds the payload's end, and the closing delimiter. -/
theorem serialFormYieldsFrame : Obligations.SerialFormYieldsFrame := by
  intro c p
  have hopen : SerialReaches c p serialStart ⟨.eBody, 0, [c.delim]⟩ := .step rfl
  have hbody : SerialReaches c p ⟨.eBody, 0, [c.delim]⟩ ⟨.eBody, p.length, [c.delim] ++ frameBody c p⟩ :=
    serialReaches_body [] p [c.delim]
  have hend : SerialReaches c p ⟨.eBody, p.length, [c.delim] ++ frameBody c p⟩
      ⟨.eClose, p.length, [c.delim] ++ frameBody c p⟩ := .step (by simp [serialStep])
  have hclose : SerialReaches c p ⟨.eClose, p.length, [c.delim] ++ frameBody c p⟩ ⟨.eDone, p.length, frame c p⟩ :=
    .step rfl
  obtain ⟨k, hk⟩ := hopen.trans (hbody.trans (hend.trans hclose))
  exact ⟨k, fun j => by rw [serialRun_add, hk, serialRun_done]⟩

end Sys2Proof.Machine

/-! # The emissions of an encode call, and calls one after another (40_encoder.md R113 to R118, R121, R128)

From the body the emission steps put out the escapes of the payload bytes that `PAY` holds from `e_idx` on, one step a
byte, so a call's steps put out its frame. Each call that the sink answers adds its frame to the outbound stream. -/

namespace Sys2Proof.Machine

variable {s : State} {p : List Byte} {a : Nat}

/-- Settles O23. -/
theorem encodeCommandIssuesFrame : Obligations.EncodeCommandIssuesFrame := fun _ _ _ _ hph hl hr =>
  exec_encode_of_placed hph hl hr

/-- An emission in the body that stays in the body. -/
theorem emitBytes_eBody {bs : List Byte} {idx : Nat} (h : s.enc.sub = .eBody) :
    emitBytes bs idx .eBody s = { s with enc := { s.enc with emitted := s.enc.emitted ++ bs, idx := idx } } := by
  rw [emitBytes, ← h]
  rfl

/-- Settles O26: in its place each emission is the branch that its rule writes out. -/
theorem emissionRules : Obligations.EmissionRules := by
  intro s b hph
  refine ⟨fun hsub => if_pos ⟨hph, hsub⟩, fun hsub hi => ?_, fun hsub hi => if_pos ⟨hph, hsub, hi⟩⟩
  have hin : inBody s.enc = true := (inBody_iff _).2 ⟨hph, hsub, hi⟩
  have hbody {bs : List Byte} := congrArg (Host.Outcome.next (φ := Fault) (ρ := Refusal))
    (emitBytes_eBody (bs := bs) (idx := s.enc.idx + 1) hsub)
  exact ⟨(if_pos hin).trans hbody, (if_pos hin).trans hbody, (if_pos hin).trans hbody⟩

/-- Two emissions are one of both lists. -/
theorem emitBytes_emitBytes (bs bs' : List Byte) (i i' : Nat) (sub sub' : ESub) (s : State) :
    emitBytes bs' i' sub' (emitBytes bs i sub s) = emitBytes (bs ++ bs') i' sub' s := by
  simp [emitBytes, State.withEnc]

section Rules

variable (ha : s.cfg.admissible = true) (hph : s.enc.phase = .writing)
include ha hph

theorem runs_txOpen (hsub : s.enc.sub = .eOpen) : Runs [.emit] s (emitBytes [s.cfg.delim] s.enc.idx .eBody s) :=
  .of_step fun r => step_of_txOpen (s := s.withPending (_ :: r)) (rest := r) ha rfl hph hsub

theorem runs_txByte {b : Byte} (hsub : s.enc.sub = .eBody) (hi : s.enc.idx < s.enc.n)
    (hb : memRead s.pay (s.enc.pay + s.enc.idx) = some b) :
    Runs [.emit] s (emitBytes (escByte s.cfg b) (s.enc.idx + 1) .eBody s) :=
  .of_step fun r => step_of_txByte (s := s.withPending (_ :: r)) (rest := r) ha rfl hph hsub hi hb

theorem runs_txClose (hsub : s.enc.sub = .eBody) (hi : s.enc.idx = s.enc.n) :
    Runs [.emit] s (emitBytes [s.cfg.delim] s.enc.idx .eDone s) :=
  .of_step fun r => step_of_txClose (s := s.withPending (_ :: r)) (rest := r) ha rfl hph hsub hi

end Rules

/-- In the body, one emission step for each payload byte from `e_idx` on. -/
theorem runs_emit_body (ha : s.cfg.admissible = true) (hph : s.enc.phase = .writing) (hsub : s.enc.sub = .eBody)
    (hn : s.enc.idx + p.length ≤ s.enc.n)
    (hp : memReadBytes s.pay (s.enc.pay + s.enc.idx) p.length = some p) :
    Runs (List.replicate p.length .emit) s (emitBytes (frameBody s.cfg p) (s.enc.idx + p.length) .eBody s) := by
  induction p generalizing s with
  | nil =>
    rw [emitBytes_eBody hsub]
    simpa [frameBody] using Runs.nil (s := s)
  | cons b p ih =>
    obtain ⟨_, _, hbp, hb, hrest⟩ := (memReadBytes_succ _ _ _ _).1 hp
    obtain ⟨rfl, rfl⟩ := List.cons.inj hbp
    rw [List.length_cons] at hn
    have hbyte := runs_txByte ha hph hsub (by omega) hb
    have hbytes := ih (s := emitBytes (escByte s.cfg b) (s.enc.idx + 1) .eBody s) ha hph rfl
      (by simpa only [emitBytes_enc] using by omega) hrest
    rw [emitBytes_emitBytes] at hbytes
    simpa [Nat.add_assoc, Nat.add_comm 1, List.replicate_succ, frameBody] using hbyte.cons hbytes

/-- The emission steps of a call put out its frame. -/
theorem runs_emit_frame (ha : s.cfg.admissible = true) (hp : memReadBytes s.pay a p.length = some p) :
    Runs (List.replicate (p.length + 2) .emit) (s.writing a p)
      (emitBytes (frame s.cfg p) p.length .eDone (s.writing a p)) := by
  have hopen := runs_txOpen (s := s.writing a p) ha rfl rfl
  have hbody := runs_emit_body (s := emitBytes [s.cfg.delim] 0 .eBody (s.writing a p)) (p := p) ha rfl rfl
    (Nat.zero_add _).le hp
  rw [emitBytes_emitBytes] at hbody
  have hclose := runs_txClose ha rfl rfl (Nat.zero_add _)
    (s := emitBytes ([s.cfg.delim] ++ frameBody s.cfg p) (0 + p.length) .eBody (s.writing a p))
  rw [emitBytes_emitBytes] at hclose
  have hrun := hopen.cons (hbody.append hclose)
  rw [← List.replicate_succ', ← List.replicate_succ] at hrun
  simp only [Nat.zero_add, emitBytes_cfg, emitBytes_enc, State.withEnc_cfg] at hrun
  exact hrun

theorem runs_encode (ha : s.cfg.admissible = true) (hidle : s.enc.phase = .idle)
    (hlen : ∀ k, s.cfg.lenMax = some k → p.length ≤ k) (hp : memReadBytes s.pay a p.length = some p) :
    Runs [.encode a p.length] s (s.writing a p) :=
  .of_step fun r => step_of_encode (s := s.withPending (_ :: r)) (rest := r) ha rfl hidle hlen hp

/-- Settles O31: the command and then the emissions. -/
theorem emissionYieldsFrame : Obligations.EmissionYieldsFrame := by
  intro s a p rest ha hidle hlen hp
  have hrun := (runs_encode ha hidle hlen hp).cons (runs_emit_frame ha hp) rest
  rw [List.length_cons, List.length_replicate] at hrun
  exact ⟨_, hrun, rfl, rfl, rfl, rfl, rfl, rfl⟩

/-- The events of encode calls that the sink answers with `Ok`. -/
def encodeCalls (calls : List (Nat × List Byte)) : List Event :=
  calls.flatMap fun x => [.encode x.1 x.2.length, .sink .ok]

theorem length_encodeCalls (calls : List (Nat × List Byte)) : (encodeCalls calls).length = 2 * calls.length := by
  simp [encodeCalls, List.length_flatMap, Nat.mul_comm]

/-- Each call adds its frame to the outbound stream and its `Ok` to the results, and leaves `PAY` as it is. -/
theorem runs_encodeCalls (calls : List (Nat × List Byte)) (ha : s.cfg.admissible = true) (hmax : s.cfg.lenMax = none)
    (hidle : s.enc.phase = .idle) (hp : ∀ x ∈ calls, memReadBytes s.pay x.1 x.2.length = some x.2) :
    ∃ t, Runs (encodeCalls calls) s t ∧ t.tx = s.tx ++ calls.flatMap (fun x => frame s.cfg x.2)
      ∧ t.encResults = s.encResults ++ calls.map (fun _ => .ok) ∧ t.enc.phase = .idle := by
  induction calls generalizing s with
  | nil => exact ⟨s, Runs.nil, by simp, by simp, hidle⟩
  | cons x calls ih =>
    obtain ⟨hx, hcalls⟩ := List.forall_mem_cons.1 hp
    have hcall := runs_encode_ok ha hidle (by simp [hmax]) hx
    obtain ⟨t, hrun, htx, hres, hph⟩ := ih (s := finishEnc .ok ((s.writing x.1 x.2).sendTx (frame s.cfg x.2)))
      ha hmax rfl hcalls
    exact ⟨t, hcall.append hrun, by simp [htx], by simp [hres], hph⟩

/-- Settles O37. -/
theorem successiveFramesConcatenate : Obligations.SuccessiveFramesConcatenate := by
  intro s calls rest ha hmax hidle hp
  obtain ⟨t, hrun, htx, hres, hph⟩ := runs_encodeCalls calls ha hmax hidle hp
  have hsteps := hrun rest
  rw [length_encodeCalls] at hsteps
  exact ⟨_, hsteps, htx, hres, hph, rfl⟩

/-- Settles O29: the event draws how much of the write reached the wire, and every initial part has its length. -/
theorem sinkFailureEndsCall : Obligations.SinkFailureEndsCall := by
  intro s f sent k rest ha hw
  refine ⟨fun hp => ⟨f.take k, f.drop k, (List.take_append_drop k f).symm, step_of_sinkFail ha hp hw⟩,
    fun hinv => hinv.write_eq_frame hw, fun hsent hp => ?_⟩
  have hstep := step_of_sinkFail ha hp hw
  rwa [← List.prefix_iff_eq_take.1 hsent] at hstep

end Sys2Proof.Machine

/-! # The decoder refines the one step function (41_decoder.md R170)

In a call that keeps the decoder's invariant, an answer of the source does what the step function says, case by case
along its equations. A decode call therefore follows `DecodeRun` answer by answer until it finishes. -/

namespace Sys2Proof.Machine

variable {s t : State} {e : Event}

/-- What the machine shows of a result of the step function: `Cont`'s five-tuple with nothing delivered, or `Done`'s
result delivered by an idle unit with its buffer. -/
def ShowsResult (s t : State) : RefResult → Prop
  | .cont r => refView t = r ∧ t.decResults = s.decResults
  | .done r o => t.dec.phase = .idle ∧ t.decResults = s.decResults ++ [r] ∧ (refView t).out = o

/-- A store into the buffer, seen in the buffer's index space. -/
theorem refStore_memRead (m : Memory) (o n : Nat) (v : Byte) :
    (fun i => memRead (memWrite m (o + n) v) (o + i)) = refStore (fun i => memRead m (o + i)) n v := by
  funext i
  unfold refStore
  split
  · next h => rw [h, memRead_memWrite_same]
  · next h => exact memRead_memWrite_other m v (by omega)

/-- An append, seen as the five-tuple. -/
theorem refView_appendByte (s : State) (v : Byte) : refView (s.appendByte v) =
    ⟨.copy, s.dec.len + 1, s.dec.cap, s.dec.status, refStore (refView s).out s.dec.len v⟩ :=
  congrArg (RefState.mk _ _ _ _) (refStore_memRead s.out s.dec.out s.dec.len v)

/-- The run of one event is a step. -/
theorem Runs.step (h : Runs [e] s t) (rest : List Event) :
    Machine.step (s.withPending (e :: rest)) = .next (t.withPending rest) := by
  obtain ⟨u, hu, ht⟩ := steps_succ_next (h rest)
  cases ht
  exact hu

/-- One received byte, equation by equation. -/
theorem receives_refStep (b : Byte) (ha : s.cfg.admissible = true) (hinv : decoderInv s) (hph : s.dec.phase ≠ .idle) :
    ∃ t r, Receives [b] s t ∧ refStep s.cfg (refView s) (.byte b) = some r ∧ ShowsResult s t r
      ∧ t.dec.out = s.dec.out := by
  obtain ⟨hcap, hesc, hseek, hresync, hstatus⟩ := hinv
  obtain ⟨c, ⟨ph, len, cap, status, o⟩, enc, out, pay, tx, decResults, encResults, pending⟩ := s
  cases ph with
  | idle => exact absurd rfl hph
  | seek =>
    obtain rfl : len = 0 := hseek rfl
    obtain rfl : status = .none := hstatus (.inl rfl)
    by_cases hb : b = c.delim
    · subst hb
      exact ⟨_, _, receives_seekEnd ha rfl, if_pos rfl, ⟨rfl, rfl⟩, rfl⟩
    · exact ⟨_, _, receives_seekSkip ha hb rfl, if_neg hb, ⟨rfl, rfl⟩, rfl⟩
  | copy =>
    obtain rfl : status = .none := hstatus (.inr (.inl rfl))
    by_cases hb : b = c.delim
    · subst hb
      exact ⟨_, _, receives_copyEnd ha rfl, if_pos rfl, ⟨rfl, rfl, rfl⟩, rfl⟩
    by_cases hl : len = cap
    · exact ⟨_, _, receives_copyOvf ha hb rfl hl, (if_neg hb).trans (if_pos hl), ⟨rfl, rfl⟩, rfl⟩
    have hroom : len < cap := Nat.lt_of_le_of_ne hcap hl
    by_cases he : b = c.esc
    · subst he
      exact ⟨_, _, receives_copyEsc ha rfl hroom, (if_neg hb).trans ((if_neg hl).trans (if_pos rfl)), ⟨rfl, rfl⟩, rfl⟩
    · exact ⟨_, _, receives_copyLit ha hb he rfl hroom, (if_neg hb).trans ((if_neg hl).trans (if_neg he)),
        ⟨refView_appendByte _ b, rfl⟩, rfl⟩
  | escaped =>
    obtain rfl : status = .none := hstatus (.inr (.inr rfl))
    have hroom : len < cap := hesc rfl
    by_cases h₁ : b = c.mEnd
    · subst h₁
      exact ⟨_, _, receives_escapedMend ha rfl hroom, if_pos rfl, ⟨refView_appendByte _ _, rfl⟩, rfl⟩
    by_cases h₂ : b = c.mEsc
    · subst h₂
      exact ⟨_, _, receives_escapedMesc ha rfl hroom, (if_neg h₁).trans (if_pos rfl),
        ⟨refView_appendByte _ _, rfl⟩, rfl⟩
    · exact ⟨_, _, receives_escapedBad ha h₁ h₂ rfl, (if_neg h₁).trans (if_neg h₂), ⟨rfl, rfl⟩, rfl⟩
  | resync =>
    obtain ⟨rfl, hst⟩ : len = 0 ∧ status ≠ .none := hresync rfl
    cases status with
    | none => exact absurd rfl hst
    | invalidEscape | frameTooLarge =>
      by_cases hb : b = c.delim
      · subst hb
        exact ⟨_, _, receives_resyncEnd ha rfl rfl, if_pos rfl, ⟨rfl, rfl, rfl⟩, rfl⟩
      · exact ⟨_, _, receives_resyncSkip ha hb rfl, if_neg hb, ⟨rfl, rfl⟩, rfl⟩

theorem runs_srcFail (ha : s.cfg.admissible = true) (hph : s.dec.phase ≠ .idle) :
    Runs [.src .fail] s (raiseDec .transportFailure s) :=
  .of_step fun r => step_of_srcFail (s := s.withPending (_ :: r)) (rest := r) ha rfl hph

/-- One answer of the source. -/
theorem runs_refStep (a : SrcAnswer) (ha : s.cfg.admissible = true) (hinv : decoderInv s) (hph : s.dec.phase ≠ .idle) :
    ∃ t r, Runs [.src a] s t ∧ refStep s.cfg (refView s) a = some r ∧ ShowsResult s t r ∧ t.dec.out = s.dec.out := by
  cases a with
  | byte b => exact receives_refStep b ha hinv hph
  | fail =>
    have hfail : refStep s.cfg (refView s) .fail = some (.done (.err .transportFailure) (refView s).out) := by
      cases h : s.dec.phase <;> simp [refStep, refView, h]
      exact hph h
    exact ⟨_, _, runs_srcFail ha hph, hfail, ⟨rfl, rfl, rfl⟩, rfl⟩

/-- Settles O47: the answer's run as the step of this state. -/
theorem decoderRefinesStepFunction : Obligations.DecoderRefinesStepFunction := by
  intro s a rest ha hinv hph hp
  obtain ⟨t, r, hrun, href, hshows, -⟩ := runs_refStep a ha hinv hph
  have hstep := hrun.step rest
  rw [← hp] at hstep
  refine ⟨_, hstep, rfl, ?_⟩
  cases r with
  | cont r => exact .inl ⟨r, href, hshows⟩
  | done r o => exact .inr ⟨r, o, href, hshows⟩

/-- Outside a call the step function has no equation. -/
theorem refRun_of_idle (c : Config) {u : RefState} (h : u.phase = .idle) (es : List SrcAnswer) :
    refRun c u es = none := by
  cases es with
  | nil => rfl
  | cons e es => simp [refRun, refStep, h]

/-- An answer that the machine takes keeps the parameters and the decoder's invariant. -/
theorem Runs.keeps_decoderInv (h : Runs [e] s t) (hinv : decoderInv s) : t.cfg = s.cfg ∧ decoderInv t :=
  have hstep := h.step []
  ⟨(step_cases hstep).2.cfg_eq, stepKeepsDecoderInvariant (s.withPending [e]) (t.withPending []) hinv hstep⟩

/-- A call follows the run of the step function to its end. -/
theorem runs_refRun {es left : List SrcAnswer} {r : DecResult} {buf : Nat → Option Byte} (ha : s.cfg.admissible = true)
    (hinv : decoderInv s) (h : refRun s.cfg (refView s) es = some (r, buf, left)) :
    ∃ taken t, es = taken ++ left ∧ Runs (srcEvents taken) s t ∧ t.dec.phase = .idle
      ∧ t.decResults = s.decResults ++ [r] ∧ (refView t).out = buf ∧ t.dec.out = s.dec.out := by
  induction es generalizing s with
  | nil => cases h
  | cons a es ih =>
    have hph : s.dec.phase ≠ .idle := fun hidle => by
      rw [refRun_of_idle _ hidle] at h
      cases h
    obtain ⟨u, x, hrun, href, hshows, hbase⟩ := runs_refStep a ha hinv hph
    rw [refRun, href] at h
    cases x with
    | done r' o =>
      obtain ⟨hidle, hres, hout⟩ := hshows
      cases h
      exact ⟨[a], u, rfl, hrun, hidle, hres, hout, hbase⟩
    | cont v =>
      obtain ⟨rfl, hres⟩ := hshows
      obtain ⟨hcfg, hinv'⟩ := hrun.keeps_decoderInv hinv
      rw [← hcfg] at h
      obtain ⟨taken, t, rfl, htaken, hidle, hres', hout, hbase'⟩ := ih (hcfg ▸ ha) hinv' h
      exact ⟨a :: taken, t, rfl, hrun.cons htaken, hidle, hres ▸ hres', hout, hbase'.trans hbase⟩

theorem length_srcEvents (es : List SrcAnswer) : (srcEvents es).length = es.length := by
  induction es <;> simp [srcEvents, *]

theorem srcEvents_append (es fs : List SrcAnswer) : srcEvents (es ++ fs) = srcEvents es ++ srcEvents fs := by
  induction es <;> simp [srcEvents, *]

theorem decoderInv_seeking (s : State) (m o : Nat) : decoderInv (s.seeking m o) := by
  simp [decoderInv]

/-- Settles O48: the command begins the run's first five-tuple. -/
theorem decodeCallRefinesDecodeRun : Obligations.DecodeCallRefinesDecodeRun := by
  intro s maxLen o es left rest r buf ha hidle hlen h
  obtain ⟨taken, t, rfl, hrun, hph, hres, rfl, hbase⟩ :=
    runs_refRun (s := s.seeking maxLen o) ha (decoderInv_seeking s maxLen o) h
  have hsteps := (runs_decode ha (o := o) hidle hlen).cons hrun (srcEvents left ++ rest)
  rw [List.length_cons, length_srcEvents, List.cons_append, ← List.append_assoc, ← srcEvents_append] at hsteps
  have hbase : t.dec.out = o := hbase
  refine ⟨t.withPending (srcEvents left ++ rest), ?_, hph, hres, fun i => by simp [refView, hbase], rfl⟩
  rwa [List.length_append, Nat.add_sub_cancel, Nat.add_comm]

end Sys2Proof.Machine

/-! # What a decode call copies, and misaligned streams

10_state.md R29 (e), 41_decoder.md R186, 70_reset_and_hazards.md R241 and R242. A frame's bytes up to its body take the
call to `COPY` with the payload copied, whatever comes after them. Only the three appends change a byte of `OUT`, each to
the byte that its row stores. -/

namespace Sys2Proof.Machine

variable {s t : State} {q : List Byte} {m o : Nat}

/-- A decode call on a start delimiter and a body that the buffer can hold. -/
theorem runs_decode_body (ha : s.cfg.admissible = true) (hidle : s.dec.phase = .idle)
    (hlen : ∀ k, s.cfg.lenMax = some k → m ≤ k) (hq : q.length ≤ m) :
    Runs (.decode m o :: srcBytes (s.cfg.delim :: frameBody s.cfg q)) s ((s.copying m o).appendBytes q) := by
  have hbody : Receives (frameBody s.cfg q) (s.copying m o) ((s.copying m o).appendBytes q) :=
    receives_frameBody (s := s.copying m o) ha rfl (by simpa using hq)
  exact (runs_decode_open (noise := []) ha hidle hlen List.not_mem_nil).append hbody

/-- Settles O49. -/
theorem copiedBytesDecodeTheBody : Obligations.CopiedBytesDecodeTheBody := by
  intro s q maxLen o rest ha hidle hlen hq
  have hrun := (runs_decode_body (o := o) ha hidle hlen hq).steps_srcBytes (es := [_]) (k := 1) rfl rest
  have hcount : 1 + (s.cfg.delim :: frameBody s.cfg q).length = 2 + (frameBody s.cfg q).length := by
    rw [List.length_cons]; omega
  rw [hcount] at hrun
  refine ⟨_, hrun, ?_, State.memReadBytes_appendBytes (s.copying maxLen o) q, by simp, rfl⟩
  exact (State.appendBytes_dec (s := s.copying maxLen o) rfl q).trans (by simp)

/-- Settles O59: the stray delimiter and the frame's own are the frame of the empty payload; the cut frame's bytes and
the next frame's opening delimiter are a whole frame. -/
theorem misalignmentHazards : Obligations.MisalignmentHazards := by
  intro s p q maxLen o rest ha hidle hlen hq
  refine ⟨⟨_, runs_decode_frame (noise := []) (p := []) ha hidle hlen List.not_mem_nil (Nat.zero_le maxLen) _,
    rfl, rfl⟩, ?_⟩
  have hrun := (runs_decode_frame (noise := []) (o := o) ha hidle hlen List.not_mem_nil hq).steps_srcBytes
    (es := [_]) rfl (srcBytes (frameBody s.cfg p ++ [s.cfg.delim]) ++ rest)
  have hbytes : s.cfg.delim :: frameBody s.cfg q ++ frame s.cfg p
      = frame s.cfg q ++ (frameBody s.cfg p ++ [s.cfg.delim]) := by simp [frame]
  have hcount : 3 + (frameBody s.cfg q).length = 1 + (frame s.cfg q).length := by simp [frame]; omega
  rw [hbytes, srcBytes_append, List.append_assoc, hcount]
  exact ⟨_, hrun, by simp, State.memReadBytes_appendBytes (s.copying maxLen o) q, rfl⟩

/-- A store that changes a byte to `v` stores `v`. -/
theorem eq_of_memWrite_changes {mem : Memory} {a x : Nat} {v w : Byte} (h : memRead (memWrite mem x w) a = some v)
    (hne : memRead mem a ≠ some v) : v = w := by
  by_cases hx : a = x
  · subst hx
    exact Option.some.inj (h.symm.trans (memRead_memWrite_same mem a w))
  · exact absurd ((memRead_memWrite_other mem w hx).symm.trans h) hne

/-- Settles O56. -/
theorem noRawReservedByteStored : Obligations.NoRawReservedByteStored := by
  intro s t b v a rest hp h hnew hold
  obtain ⟨-, hcase⟩ := step_cases h
  have hbyte {b' : Byte} {rest' : List Event} (hq : s.pending = .src (.byte b') :: rest') : b = b' := by
    cases hp.symm.trans hq
    rfl
  cases hcase with
  | copyLit _ b' hq hd he hph =>
    obtain rfl := hbyte hq
    exact .inl ⟨hph, eq_of_memWrite_changes hnew hold, hd, he⟩
  | escapedMend _ hq hph => exact .inr ⟨hph, .inl ⟨hbyte hq, eq_of_memWrite_changes hnew hold⟩⟩
  | escapedMesc _ hq hph => exact .inr ⟨hph, .inr ⟨hbyte hq, eq_of_memWrite_changes hnew hold⟩⟩
  | callerWriteOut _ _ _ hq => cases hp.symm.trans hq
  | reset _ _ hq => cases hp.symm.trans hq
  | _ => exact absurd hnew hold

end Sys2Proof.Machine

/-! # The delimiters that a decode call consumes (70_reset_and_hazards.md R240, R251, R252)

In each phase the bytes consumed so far hold a known number of delimiters: none in `SEEK`, one in `COPY` and `ESCAPED`,
one in `RESYNC` or, after a delimiter that was a bad escape, two. So a call that has ended has consumed two or three, and
one that has not ended has consumed at most two. -/

namespace Sys2Proof.Machine

variable {s t : State} {rs : List DecResult} {bs cs : List Byte} {b : Byte} {rest : List Event}

/-- Somewhere in the bytes a delimiter stands directly after an escape byte. -/
def HasEscapedDelim (c : Config) (bs : List Byte) : Prop :=
  ∃ before after, bs = before ++ [c.esc, c.delim] ++ after

theorem HasEscapedDelim.append {c : Config} (h : HasEscapedDelim c bs) (cs : List Byte) :
    HasEscapedDelim c (bs ++ cs) := by
  obtain ⟨before, after, rfl⟩ := h
  exact ⟨before, after ++ cs, by rw [List.append_assoc]⟩

/-- A call that began with the results `rs` delivered and has consumed the bytes `bs`. -/
def CallProgress (rs : List DecResult) (bs : List Byte) (s : State) : Prop :=
  match s.dec.phase with
  | .seek => s.decResults = rs ∧ bs.count s.cfg.delim = 0
  | .copy => s.decResults = rs ∧ bs.count s.cfg.delim = 1
  | .escaped => s.decResults = rs ∧ bs.count s.cfg.delim = 1 ∧ ∃ before, bs = before ++ [s.cfg.esc]
  | .resync => s.decResults = rs ∧ (bs.count s.cfg.delim = 1
      ∨ bs.count s.cfg.delim = 2 ∧ s.dec.status = .invalidEscape ∧ HasEscapedDelim s.cfg bs)
  | .idle => ∃ r, s.decResults = rs ++ [r] ∧ bs.getLast? = some s.cfg.delim ∧ (bs.count s.cfg.delim = 2
      ∨ bs.count s.cfg.delim = 3 ∧ r = .err .invalidEscape ∧ HasEscapedDelim s.cfg bs)

/-! The progress, phase by phase. -/

theorem callProgress_seek (hph : s.dec.phase = .seek) :
    CallProgress rs bs s ↔ s.decResults = rs ∧ bs.count s.cfg.delim = 0 := by rw [CallProgress, hph]

theorem callProgress_copy (hph : s.dec.phase = .copy) :
    CallProgress rs bs s ↔ s.decResults = rs ∧ bs.count s.cfg.delim = 1 := by rw [CallProgress, hph]

theorem callProgress_escaped (hph : s.dec.phase = .escaped) : CallProgress rs bs s ↔
    s.decResults = rs ∧ bs.count s.cfg.delim = 1 ∧ ∃ before, bs = before ++ [s.cfg.esc] := by rw [CallProgress, hph]

theorem callProgress_resync (hph : s.dec.phase = .resync) : CallProgress rs bs s ↔
    s.decResults = rs ∧ (bs.count s.cfg.delim = 1
      ∨ bs.count s.cfg.delim = 2 ∧ s.dec.status = .invalidEscape ∧ HasEscapedDelim s.cfg bs) := by
  rw [CallProgress, hph]

theorem callProgress_idle (hph : s.dec.phase = .idle) : CallProgress rs bs s ↔
    ∃ r, s.decResults = rs ++ [r] ∧ bs.getLast? = some s.cfg.delim ∧ (bs.count s.cfg.delim = 2
      ∨ bs.count s.cfg.delim = 3 ∧ r = .err .invalidEscape ∧ HasEscapedDelim s.cfg bs) := by
  rw [CallProgress, hph]

/-- One byte more. -/
theorem CallProgress.step (hs : CallProgress rs bs s) (hp : s.pending = .src (.byte b) :: rest)
    (h : step s = .next t) : CallProgress rs (bs ++ [b]) t := by
  obtain ⟨ha, hcase⟩ := step_cases h
  obtain ⟨hde, -, hend, hesc, -, -⟩ := s.cfg.admissible_iff.1 ha
  have hbyte {b' : Byte} {rest' : List Event} (hq : s.pending = .src (.byte b') :: rest') : b' = b := by
    cases hp.symm.trans hq
    rfl
  have hdelim {n : Nat} (hn : bs.count s.cfg.delim = n) : (bs ++ [s.cfg.delim]).count s.cfg.delim = n + 1 := by
    simp [hn]
  have hother {x : Byte} {n : Nat} (hx : x ≠ s.cfg.delim) (hn : bs.count s.cfg.delim = n) :
      (bs ++ [x]).count s.cfg.delim = n := by
    simp [hx, hn]
  cases hcase with
  | seekEnd _ hq hph =>
    obtain rfl := hbyte hq
    obtain ⟨hres, hn⟩ := (callProgress_seek hph).1 hs
    exact ⟨hres, hdelim hn⟩
  | seekSkip _ _ hq hb hph =>
    obtain rfl := hbyte hq
    obtain ⟨hres, hn⟩ := (callProgress_seek hph).1 hs
    exact (callProgress_seek hph).2 ⟨hres, hother hb hn⟩
  | copyEnd _ hq hph =>
    obtain rfl := hbyte hq
    obtain ⟨rfl, hn⟩ := (callProgress_copy hph).1 hs
    exact ⟨_, rfl, List.getLast?_concat, .inl (hdelim hn)⟩
  | copyOvf _ _ hq hb hph =>
    obtain rfl := hbyte hq
    obtain ⟨hres, hn⟩ := (callProgress_copy hph).1 hs
    exact ⟨hres, .inl (hother hb hn)⟩
  | copyEsc _ hq hph =>
    obtain rfl := hbyte hq
    obtain ⟨hres, hn⟩ := (callProgress_copy hph).1 hs
    exact ⟨hres, hother hde.symm hn, bs, rfl⟩
  | copyLit _ _ hq hb _ hph =>
    obtain rfl := hbyte hq
    obtain ⟨hres, hn⟩ := (callProgress_copy hph).1 hs
    exact ⟨hres, hother hb hn⟩
  | escapedMend _ hq hph =>
    obtain rfl := hbyte hq
    obtain ⟨hres, hn, -⟩ := (callProgress_escaped hph).1 hs
    exact ⟨hres, hother hend hn⟩
  | escapedMesc _ hq hph =>
    obtain rfl := hbyte hq
    obtain ⟨hres, hn, -⟩ := (callProgress_escaped hph).1 hs
    exact ⟨hres, hother hesc hn⟩
  | escapedBad _ b' hq _ _ hph =>
    obtain rfl := hbyte hq
    obtain ⟨hres, hn, before, rfl⟩ := (callProgress_escaped hph).1 hs
    refine ⟨hres, ?_⟩
    by_cases hb : b' = s.cfg.delim
    · subst hb
      exact .inr ⟨hdelim hn, rfl, before, [], by simp⟩
    · exact .inl (hother hb hn)
  | resyncEnd _ e hq hph he =>
    obtain rfl := hbyte hq
    obtain ⟨rfl, hn | ⟨hn, hst, hpair⟩⟩ := (callProgress_resync hph).1 hs
    · exact ⟨_, rfl, List.getLast?_concat, .inl (hdelim hn)⟩
    · rw [hst] at he
      cases he
      exact ⟨_, rfl, List.getLast?_concat, .inr ⟨hdelim hn, rfl, hpair.append _⟩⟩
  | resyncSkip _ _ hq hb hph =>
    obtain rfl := hbyte hq
    obtain ⟨hres, hn⟩ := (callProgress_resync hph).1 hs
    exact (callProgress_resync hph).2 ⟨hres, hn.imp (hother hb) fun ⟨hn, hst, hpair⟩ =>
      ⟨hother hb hn, hst, hpair.append _⟩⟩
  | quiet hq => cases hp.symm.trans hq
  | _ => cases hp.symm.trans ‹s.pending = _ :: _›

/-- The bytes one after another. -/
theorem CallProgress.steps (hs : CallProgress rs bs s) (hp : s.pending = srcBytes cs ++ rest)
    (h : steps cs.length s = .next t) : CallProgress rs (bs ++ cs) t := by
  induction cs generalizing s bs with
  | nil =>
    cases h
    rwa [List.append_nil]
  | cons b cs ih =>
    obtain ⟨u, hu, h⟩ := steps_succ_next h
    rw [List.append_cons]
    exact ih (hs.step hp hu) ((step_cases hu).2.pending_eq hp) h

theorem callProgress_seeking (s : State) (m o : Nat) : CallProgress s.decResults [] (s.seeking m o) :=
  ⟨rfl, rfl⟩

/-- A call that has not ended has consumed at most two delimiters. -/
theorem CallProgress.count_le (hs : CallProgress rs bs s) (hph : s.dec.phase ≠ .idle) : bs.count s.cfg.delim ≤ 2 := by
  cases h : s.dec.phase with
  | idle => exact absurd h hph
  | seek => have := ((callProgress_seek h).1 hs).2; omega
  | copy => have := ((callProgress_copy h).1 hs).2; omega
  | escaped => have := ((callProgress_escaped h).1 hs).2.1; omega
  | resync =>
    obtain ⟨-, hn | ⟨hn, -⟩⟩ := (callProgress_resync h).1 hs
    · omega
    · exact hn.le

/-- A run keeps the parameters. -/
theorem steps_cfg {k : Nat} (h : steps k s = .next t) : t.cfg = s.cfg := by
  induction k generalizing s with
  | zero =>
    cases h
    rfl
  | succ k ih =>
    obtain ⟨u, hu, h⟩ := steps_succ_next h
    exact (ih h).trans (step_cases hu).2.cfg_eq

/-- Settles O58: what the ended call's progress says; two delimiters are at least two bytes. -/
theorem delimitersConsumedByACall : Obligations.DelimitersConsumedByACall := by
  intro s t maxLen o bs rest _ h hidle
  have hcfg : t.cfg = s.cfg := (steps_cfg h :)
  rw [Nat.add_comm] at h
  obtain ⟨u, hu, h⟩ := steps_succ_next h
  obtain ⟨-, -, rfl⟩ := step_decode_next (rest := srcBytes bs ++ rest) rfl hu
  have hprog := (callProgress_seeking (s.withPending (srcBytes bs ++ rest)) maxLen o).steps rfl h
  obtain ⟨r, hres, hlast, hcount⟩ := (callProgress_idle hidle).1 hprog
  rw [List.nil_append, hcfg] at hlast hcount
  have htwo : 2 ≤ bs.count s.cfg.delim := by
    obtain hn | ⟨hn, -⟩ := hcount <;> omega
  exact ⟨htwo.trans List.count_le_length, r, hres, hlast, hcount⟩

/-- The bytes received one after another. -/
theorem CallProgress.receives (hs : CallProgress rs bs s) (h : Receives cs s t) : CallProgress rs (bs ++ cs) t := by
  have hsteps := h []
  rw [srcBytes_length] at hsteps
  exact CallProgress.steps (s := s.withPending (srcBytes cs ++ [])) (t := t.withPending []) hs rfl hsteps

/-- A call ends within the bytes, or it takes them all. -/
theorem receives_until_idle (bs : List Byte) (ha : s.cfg.admissible = true) (hinv : decoderInv s)
    (hph : s.dec.phase ≠ .idle) :
    (∃ k t, k ≤ bs.length ∧ Receives (bs.take k) s t ∧ t.dec.phase = .idle)
      ∨ ∃ t, Receives bs s t ∧ t.dec.phase ≠ .idle := by
  induction bs generalizing s with
  | nil => exact .inr ⟨s, Runs.nil, hph⟩
  | cons b bs ih =>
    obtain ⟨u, _, hrun, -, -, -⟩ := receives_refStep b ha hinv hph
    by_cases hidle : u.dec.phase = .idle
    · exact .inl ⟨1, u, by simp, hrun, hidle⟩
    obtain ⟨hcfg, hinv'⟩ := Runs.keeps_decoderInv hrun hinv
    obtain ⟨k, t, hk, hrest, ht⟩ | ⟨t, hrest, ht⟩ := ih (hcfg ▸ ha) hinv' hidle
    · exact .inl ⟨k + 1, t, by simpa using hk, hrun.append hrest, ht⟩
    · exact .inr ⟨t, hrun.append hrest, ht⟩

/-- Settles O60: a call that took all the bytes without ending would have consumed at most two delimiters. -/
theorem callEndsWithEnoughDelimiters : Obligations.CallEndsWithEnoughDelimiters := by
  intro s maxLen o bs rest ha hidle hlen hthree
  have hprog := callProgress_seeking s maxLen o
  obtain ⟨k, t, hk, hrun, hend⟩ | ⟨t, hrun, hopen⟩ :=
    receives_until_idle (s := s.seeking maxLen o) bs ha (decoderInv_seeking s maxLen o) nofun
  · obtain ⟨r, hres, -⟩ := (callProgress_idle hend).1 (hprog.receives hrun)
    have hsteps := ((runs_decode ha (o := o) hidle hlen).cons hrun).steps_srcBytes (es := [_]) (k := 1) rfl
      (srcBytes (bs.drop k) ++ rest)
    rw [← List.append_assoc (srcBytes _), ← srcBytes_append, List.take_append_drop, List.length_take_of_le hk] at hsteps
    exact ⟨k, _, r, hk, hsteps, hend, hres, rfl⟩
  · have htwo := (hprog.receives hrun).count_le hopen
    have hcfg : t.cfg = s.cfg := (steps_cfg (hrun []) :)
    rw [hcfg, List.nil_append] at htwo
    exact absurd (hthree.trans htwo) (by decide)

end Sys2Proof.Machine

/-! # The operation an event selects (00_scope.md R8, R13; 30_encoding.md R84 to R88; 41_decoder.md R162, R164)

A step is the operation that its event selects, on the state with the event taken off. Which one is said once for each
event; a byte's is what the table of the decoder's phase answers. An event that nobody asked for selects nothing. -/

namespace Sys2Proof.Machine

variable {s : State} {rest : List Event} {b : Byte} {x : Context} {i : Instr}

/-- In a call a read is outstanding, in the context of the phase (R162). -/
theorem rxContext_of_call {d : Dec} (hph : d.phase ≠ .idle) : ∃ x, rxContext d = some x := by
  cases h : d.phase <;> simp [rxContext, h]
  exact hph h

section Step

variable (ha : s.cfg.admissible = true)
include ha

/-- A step on an event that selects an operation. -/
theorem step_of_run {e : Event} (hp : s.pending = e :: rest) (hs : selectEvent e (s.withPending rest) = .run i) :
    step s = exec i (s.withPending rest) := by
  rw [step_event ha hp, hs, perform]

theorem step_of_byte (hp : s.pending = .src (.byte b) :: rest) (hx : rxContext s.dec = some x) :
    step s = exec (decodeSymbol s.cfg x b) (s.withPending rest) :=
  step_of_run ha hp (by simp [selectEvent, selectAnswer, hx])

theorem step_of_fail (hp : s.pending = .src .fail :: rest) (hph : s.dec.phase ≠ .idle) :
    step s = exec .srcFail (s.withPending rest) := by
  obtain ⟨x, hx⟩ := rxContext_of_call hph
  exact step_of_run ha hp (by simp [selectEvent, selectAnswer, hx])

theorem step_of_emit (hp : s.pending = .emit :: rest) (hs : selectEmission (s.withPending rest) = .run i) :
    step s = exec i (s.withPending rest) :=
  step_of_run ha hp hs

/-- A step on an event that has no meaning. -/
theorem step_of_refuse {e : Event} {r : Refusal} (hp : s.pending = e :: rest)
    (hs : selectEvent e (s.withPending rest) = .refuse r) : step s = .refused r := by
  rw [step_event ha hp, hs, perform]

end Step

/-- What is decoded from one byte is what the tables answer. -/
theorem decodeBytes_singleton {c : Config} (h : decodeBytes c x [b] = .ok i []) : decodeSymbol c x b = i := by
  cases h
  rfl

/-- Settles O5: the selection of each event. -/
theorem stepRunsSelectedOperation : Obligations.StepRunsSelectedOperation := by
  intro s rest ha
  refine ⟨fun m o hp => step_of_run ha hp rfl, fun p n hp => step_of_run ha hp rfl, fun b x i hp hx hi => ?byte,
    fun hp hph => step_of_fail ha hp hph, fun hp hph hsub => ?first, fun hp hph hsub hn => ?last,
    fun b i hp hph hsub hn hb hi => ?body⟩
  case byte =>
    obtain rfl := decodeBytes_singleton hi
    exact step_of_byte ha hp hx
  case first => exact step_of_emit ha hp (by simp [selectEmission, hph, hsub])
  case last => exact step_of_emit ha hp (by simp [selectEmission, hph, hsub, hn])
  case body =>
    obtain rfl := decodeBytes_singleton hi
    exact step_of_emit ha hp (by simp [selectEmission, hph, hsub, hn, payAddr, hb])

/-- Settles O6: the tables of the three phases. -/
theorem receivedByteSelectsByPhase : Obligations.ReceivedByteSelectsByPhase := fun _ _ _ ha hp =>
  ⟨fun hph => step_of_byte (x := .rxSeek) ha hp (by simp [rxContext, hph]),
    fun hph => step_of_byte (x := .rxEscaped) ha hp (by simp [rxContext, hph]),
    fun hph => step_of_byte (x := .rxResync) ha hp (by simp [rxContext, hph])⟩

/-- Settles O7: the table of `COPY`, whose context says whether the buffer is full. -/
theorem copyTestOrder : Obligations.CopyTestOrder := by
  intro s b rest ha hp hph
  have hstep := step_of_byte (x := .rxCopy (decide (s.dec.len = s.dec.cap))) ha hp (by simp [rxContext, hph])
  simp only [decodeSymbol, decide_eq_true_eq] at hstep
  exact hstep

/-- Settles O8: no read, no write and no emission is outstanding. -/
theorem unaskedEventsRefused : Obligations.UnaskedEventsRefused := by
  intro s rest ha
  refine ⟨fun a hp hph => ?_, fun a hp hw => ?_, fun hp hnone => ?_⟩
  · exact step_of_refuse ha hp (by simp [selectEvent, selectAnswer, rxContext, hph])
  · rw [step_event ha hp]
    cases a <;> simp [selectEvent, perform, sinkOk, sinkFail, hw]
  · refine step_of_refuse ha hp ?_
    cases hph : s.enc.phase with
    | idle => simp [selectEvent, selectEmission, hph]
    | writing =>
      have hsub : s.enc.sub = .eDone := hnone.resolve_left (by simp [hph])
      simp [selectEvent, selectEmission, hph, hsub]

/-- Settles O9: each of the six equalities breaks R8. -/
theorem inadmissibleParametersRefused : Obligations.InadmissibleParametersRefused := by
  intro s heq
  refine if_neg fun ha => ?_
  obtain ⟨h₁, h₂, h₃, h₄, h₅, h₆⟩ := s.cfg.admissible_iff.1 ha
  obtain h | h | h | h | h | h := heq
  exacts [h₁ h, h₂ h, h₃ h, h₄ h, h₅ h, h₆ h]

end Sys2Proof.Machine

/-! # The decoder's error rows, the operations out of place, and the commands that stop

In its place each of these operations is the branch that its rule writes out, and out of it the branch that stops, by
the same tests. -/

namespace Sys2Proof.Machine

/-- Settles O14. -/
theorem fullBufferRaisesFrameTooLarge : Obligations.FullBufferRaisesFrameTooLarge := fun _ _ hph hl => if_pos ⟨hph, hl⟩

/-- In `RESYNC` with an error pending, a delimiter delivers that error (R156). -/
theorem execResyncEnd_of_pending {s : State} {e : ErrorCode} (hph : s.dec.phase = .resync)
    (he : pendingError s.dec.status = some e) : execResyncEnd s = .next (finishDec (.err e) s) := by
  simp [execResyncEnd, hph, he]

/-- Settles O19: the pending error of each status. -/
theorem resyncSymbols : Obligations.ResyncSymbols := fun _ _ hph =>
  ⟨fun hst => execResyncEnd_of_pending hph (congrArg pendingError hst),
    fun hst => execResyncEnd_of_pending hph (congrArg pendingError hst), if_pos hph⟩

/-- Settles O20. -/
theorem sourceFailureEndsCall : Obligations.SourceFailureEndsCall := fun _ hph => if_neg hph

theorem ne_writing_of_idle {e : Enc} (h : e.phase = .idle) : e.phase ≠ .writing := by
  rw [h]
  nofun

/-- A marker's append at or beyond the capacity has no meaning (R52). -/
theorem appendOut_of_full {s : State} (v : Byte) (ph : DPhase) (h : s.dec.cap ≤ s.dec.len) :
    appendOut v ph s = .fault .outIndexBeyondCapacity :=
  if_neg (Nat.not_lt.2 h)

/-- Settles O21: each operation's test fails, and of the two faults the test inside it. -/
theorem rowsOutOfPlaceStop : Obligations.RowsOutOfPlaceStop := by
  intro s b
  have hroom (h : s.dec.phase ≠ .copy ∨ s.dec.cap ≤ s.dec.len) : ¬(s.dec.phase = .copy ∧ s.dec.len < s.dec.cap) :=
    not_and_or.2 (h.imp_right Nat.not_lt.2)
  have hopen (h : s.enc.phase = .idle ∨ s.enc.sub ≠ .eOpen) : ¬(s.enc.phase = .writing ∧ s.enc.sub = .eOpen) :=
    not_and_or.2 (h.imp_left ne_writing_of_idle)
  have hbody (h : s.enc.phase = .idle ∨ s.enc.sub ≠ .eBody ∨ s.enc.n ≤ s.enc.idx) : ¬inBody s.enc = true := by
    rw [inBody_iff, not_and_or, not_and_or]
    exact h.imp ne_writing_of_idle (Or.imp_right Nat.not_lt.2)
  have hclose (h : s.enc.phase = .idle ∨ s.enc.sub ≠ .eBody ∨ s.enc.idx ≠ s.enc.n) :
      ¬(s.enc.phase = .writing ∧ s.enc.sub = .eBody ∧ s.enc.idx = s.enc.n) := by
    rw [not_and_or, not_and_or]
    exact h.imp_left ne_writing_of_idle
  refine ⟨fun h => ⟨if_neg h, if_neg h⟩, fun h => if_neg h, fun h => if_neg (not_and_or.2 h),
    fun h => ⟨if_neg (hroom h), if_neg (hroom h)⟩, fun h => ⟨if_neg h, if_neg h, if_neg h⟩,
    fun h => ⟨if_neg h, if_neg h⟩, fun h => if_pos h, fun hph hl => ?full, fun hph hst => ?noError,
    fun h => if_neg (hopen h), fun h => ⟨if_neg (hbody h), if_neg (hbody h), if_neg (hbody h)⟩,
    fun h => if_neg (hclose h)⟩
  case full => exact ⟨(if_pos hph).trans (appendOut_of_full _ _ hl), (if_pos hph).trans (appendOut_of_full _ _ hl)⟩
  case noError => simp [exec, execResyncEnd, hph, hst, pendingError]

/-- A length above the bound cannot be on a command port (R42). -/
theorem not_lengthOk {c : Config} {m n : Nat} (hm : c.lenMax = some m) (hn : m < n) : ¬c.lengthOk n = true := fun h =>
  absurd ((c.lengthOk_iff n).1 h m hm) (Nat.not_le.2 hn)

/-- Settles O24: the commands' tests, in order: the unit is idle, the length is one that the port can carry, the
payload's bytes are placed. -/
theorem commandsStop : Obligations.CommandsStop := by
  intro s a n
  refine ⟨fun h => if_neg h, fun m hph hm hn => (if_pos hph).trans (if_neg (not_lengthOk hm hn)), fun h => if_neg ?busy,
    fun m hph hm hn => (if_pos hph).trans (if_neg (not_lengthOk hm hn)), fun i hph hlen hi hnone => ?unplaced⟩
  case busy => exact fun hidle => ne_writing_of_idle hidle h
  case unplaced =>
    have hread := memReadBytes_none s.pay a n i hi hnone
    simp [exec, execEncode, hph, (s.cfg.lengthOk_iff n).2 hlen, hread]

end Sys2Proof.Machine

/-! # Reset (10_state.md R40; 70_reset_and_hazards.md R230 to R232) -/

namespace Sys2Proof.Machine

/-- Settles O38: the reset state, field by field; with nothing pending a step changes nothing. -/
theorem resetLeavesUnitsIdle : Obligations.ResetLeavesUnitsIdle :=
  ⟨rfl, rfl, rfl, rfl, rfl, rfl, rfl, rfl, rfl, rfl, rfl, step_quiet rfl rfl⟩

theorem abandonWrite_tx_none {s : State} (k : Nat) (h : s.enc.write = none) : (abandonWrite k s).tx = s.tx := by
  simp [abandonWrite, h]

theorem abandonWrite_tx_some {s : State} {f : List Byte} (k : Nat) (h : s.enc.write = some f) :
    (abandonWrite k s).tx = s.tx ++ f.take k := by
  simp [abandonWrite, h]

/-- Settles O39: a reset sets both units and leaves the rest, but for what was on its way to the wire. -/
theorem resetEventAbandonsCalls : Obligations.ResetEventAbandonsCalls := by
  intro s k rest ha hp
  exact ⟨_, step_event ha hp, rfl, rfl, rfl, by simp, by simp, by simp, by simp, by simp, by simp,
    fun hw => abandonWrite_tx_none k hw, fun f hw => abandonWrite_tx_some k hw⟩

end Sys2Proof.Machine
